-- ==== Sys2Proof/Word.lean ====
section
/-! DEFINITION. The word types of the engine's ports and rails. -/

namespace Sys2Proof

/-- A command word, format C, 32 bits (30_encoding.md rule R71). -/
abbrev CommandWord := BitVec 32

/-- A micro-operation word, format U, 8 bits (30_encoding.md rule R82). -/
abbrev MicroWord := BitVec 8

/-- A container for one operand word. The operand port is `2 * SW` bits wide with `SW` at most 32
(00_scope.md rule R9, 30_encoding.md rule R78), so 64 bits hold every operand word of every configuration.
Only the low `2 * SW` bits are wires of the port (notes/assumptions/3.md). -/
abbrev OpWord := BitVec 64

/-- A bit rail: `R[0]`, the oldest element, first and `R[len-1]`, the newest, last; `R.len` is the length of the
list (20_memory.md rule R52, 40_bitbuffer.md rule R100). Bit 1 is `true`. -/
abbrev Rail := List Bool

end Sys2Proof
end

