-- ==== Sys2Proof/Config.lean ====
section
/-! DEFINITION. The implementation parameters of one engine instance (00_scope.md rules R8 and R9). -/

namespace Sys2Proof

/-- `CLASS`, the type class of an instance (00_scope.md rules R6 and R8): there are three, and the fourth encoding
is not instantiable. -/
inductive CorrClass where
  /-- Real pattern, real symbol, real output. -/
  | rr
  /-- Real pattern, complex symbol, complex output. -/
  | cr
  /-- Complex pattern, complex symbol, complex output. -/
  | cc
deriving DecidableEq, Repr

/-- The parameters the model takes as arguments (00_scope.md rules R8 and R9). No command and no reset changes
them. -/
structure Config where
  /-- `CLASS`. -/
  cls : CorrClass
  /-- `NMAX`, the largest pattern length the rails can hold. -/
  nmax : Nat
  /-- `SW`, the width in bits of one sample component. -/
  sw : Nat
  /-- `SG_G[m]`, the feedback mask of order m, at index m - 2. -/
  sgG : List (BitVec 12)
  /-- `SG_A[m]`, the initial register of order m, at index m - 2. -/
  sgA : List (BitVec 12)
deriving DecidableEq, Repr

/-- The orders the generator supports, 2 to 12 (41_generator.md rule R122). -/
def sgOrders : List Nat := [2, 3, 4, 5, 6, 7, 8, 9, 10, 11, 12]

/-- The constraints of 00_scope.md rule R9 that are bounds on single values. Rule R9's constraint on the period is
`Sys2Proof.Machine.MaximalPeriod` (Sys2Proof/Safety.lean). -/
abbrev Config.Wf (c : Config) : Prop :=
  (4095 ≤ c.nmax ∧ c.nmax ≤ 2 ^ 24 - 1) ∧ (2 ≤ c.sw ∧ c.sw ≤ 32) ∧
  (c.sgG.length = 11 ∧ c.sgA.length = 11) ∧
  (∀ m ∈ sgOrders, (c.sgG.getD (m - 2) 0).toNat < 2 ^ m ∧
    (c.sgA.getD (m - 2) 0).toNat < 2 ^ m ∧ c.sgA.getD (m - 2) 0 ≠ 0)

end Sys2Proof
end

