-- ==== Sys2Proof/Machine/Defaults.lean ====
section
/-! DEFINITION. The default parameters (00_scope.md rule R9, 41_generator.md rule R127). -/

namespace Sys2Proof

/-- `SG_G[m]` for m = 2 to 12 (41_generator.md rule R127, from general knowledge by the spec's own mark; see
notes/assumptions/2.md). -/
def defaultSgG : List (BitVec 12) :=
  [0x003, 0x005, 0x009, 0x012, 0x021, 0x044, 0x08E, 0x108, 0x204, 0x402, 0x829]

/-- `SG_A[m]` = 2^(m-1) for m = 2 to 12 (00_scope.md rule R9, 41_generator.md rule R127). -/
def defaultSgA : List (BitVec 12) :=
  [0x002, 0x004, 0x008, 0x010, 0x020, 0x040, 0x080, 0x100, 0x200, 0x400, 0x800]

/-- The defaults of rule R9 for an instance of class `cls`. Rule R8 gives `CLASS` no default. -/
def Config.defaultOf (cls : CorrClass) : Config :=
  { cls := cls, nmax := 4095, sw := 16, sgG := defaultSgG, sgA := defaultSgA }

/-- The configuration of `State.reset`. DESIGN CHOICE: class RR (notes/assumptions/1.md). -/
def Config.default : Config := Config.defaultOf .rr

end Sys2Proof
end

