-- ==== Sys2Proof/Syntax.lean ====
section
/-! DEFINITION. The instructions: one constructor for each row of spec/opcode_table.json, nine host commands
(format C) and ten micro-operations (format U), and the two kinds of transaction that carry them. -/

namespace Sys2Proof

/-- The four rails a micro-operation can name (10_state.md rules R27 to R30). -/
inductive RailName where
  | refI | refQ | rxI | rxQ
deriving DecidableEq, Repr

/-- An operand of a micro-operation on the internal port (30_encoding.md rule R83): a length or an order, a rail,
or a bit. The spec gives these operands no encoding (notes/assumptions/5.md). -/
inductive MicroArg where
  | int (n : Nat)
  | rail (r : RailName)
  | bit (b : Bool)
deriving DecidableEq, Repr

/-- The instructions of the opcode map. A host command carries the operand words its command word asks for
(30_encoding.md rules R70 and R77); a micro-operation carries its operands (rule R83). -/
inductive Instr where
  /-- `PSEQ n, [s_0, ..., s_(n-1)]` (43_pattern.md rule R151). -/
  | pseq (n : BitVec 24) (burst : List OpWord)
  /-- `PGEN code` (43_pattern.md rule R156). -/
  | pgen (sel : BitVec 4)
  /-- `BIND` (44_correlator.md rule R171). -/
  | bind
  /-- `RESET`, the correlator reset (44_correlator.md rule R174). -/
  | reset
  /-- `PUSH s` (44_correlator.md rule R178). -/
  | push (op : OpWord)
  /-- `DESTROY` (44_correlator.md rule R190). -/
  | destroy
  /-- `INFO` (45_diagnostics.md rule R201). -/
  | info
  /-- `RDLAST` (45_diagnostics.md rule R203). -/
  | rdlast
  /-- `PDESTROY` (43_pattern.md rule R162). -/
  | pdestroy
  /-- `r <- BSB.CREATE len` (40_bitbuffer.md rule R102). -/
  | bsbCreate (r : RailName) (len : Nat)
  /-- `BSB.PUSH r, b` (40_bitbuffer.md rule R104). -/
  | bsbPush (r : RailName) (b : Bool)
  /-- `BSB.CORR a, b` (40_bitbuffer.md rule R106). -/
  | bsbCorr (a b : RailName)
  /-- `BSB.CLEAR r` (40_bitbuffer.md rule R108). -/
  | bsbClear (r : RailName)
  /-- `BSB.DESTROY r` (40_bitbuffer.md rule R109). -/
  | bsbDestroy (r : RailName)
  /-- `SG.CREATE m` (41_generator.md rule R122). -/
  | sgCreate (m : Nat)
  /-- `SG.RESET` (41_generator.md rule R123). -/
  | sgReset
  /-- `SG.NEXT` (41_generator.md rule R124). -/
  | sgNext
  /-- `SG.LEN` (41_generator.md rule R125). -/
  | sgLen
  /-- `SG.DESTROY` (41_generator.md rule R126). -/
  | sgDestroy
deriving DecidableEq, Repr

/-- What a port delivers at once: a command word with its operand burst on the command and operand ports
(30_encoding.md rule R70), or a micro-operation word with its operands on the internal port (rule R82). -/
inductive Transaction where
  | command (w : CommandWord) (burst : List OpWord)
  | micro (w : MicroWord) (args : List MicroArg)
deriving DecidableEq, Repr

/-- Is the instruction a host command (format C)? The others are micro-operations (30_encoding.md rule R82). -/
def Instr.isCommand : Instr → Bool
  | .pseq _ _ => true
  | .pgen _ => true
  | .bind => true
  | .reset => true
  | .push _ => true
  | .destroy => true
  | .info => true
  | .rdlast => true
  | .pdestroy => true
  | .bsbCreate _ _ => false
  | .bsbPush _ _ => false
  | .bsbCorr _ _ => false
  | .bsbClear _ => false
  | .bsbDestroy _ => false
  | .sgCreate _ => false
  | .sgReset => false
  | .sgNext => false
  | .sgLen => false
  | .sgDestroy => false

/-- The pseudo-instruction `OPEN.SEQ n, [...]` (30_encoding.md rule R91). -/
def openSeq (n : BitVec 24) (burst : List OpWord) : List Instr := [.pseq n burst, .bind]

/-- The pseudo-instruction `OPEN.GEN code` (30_encoding.md rule R91). -/
def openGen (sel : BitVec 4) : List Instr := [.pgen sel, .bind]

end Sys2Proof
end

