-- ==== Sys2Proof/Machine/State.lean ====
section
/-! DEFINITION. The state of one engine instance (10_state.md rule R20), its ports, the reasons a step can stop, and
the state after reset. -/

namespace Sys2Proof.Machine

/-- `LC`, the lifecycle register (10_state.md rule R22). Its value 3 never occurs and has no constructor. -/
inductive Lifecycle where
  /-- No pattern. -/
  | empty
  /-- A pattern exists, no correlator is bound to it. -/
  | ready
  /-- A pattern exists and the correlator's received rails exist. -/
  | bound
deriving DecidableEq, Repr

/-- `PATH`, the construction path (10_state.md rule R24). -/
inductive Path where
  /-- Built by `PSEQ`. Also the value of the register while `LC` is `EMPTY`. -/
  | explicit
  /-- Built by `PGEN`. -/
  | generator
deriving DecidableEq, Repr

/-- The error causes (60_exceptions.md rule R211). -/
inductive ErrCause where
  | opcode | state | sel | len0 | lenMax
deriving DecidableEq, Repr

/-- `STATUS` of a response (30_encoding.md rule R85): `OK` or the code of a cause. -/
inductive Status where
  | ok
  | error (c : ErrCause)
deriving DecidableEq, Repr

/-- The response record (30_encoding.md rule R85). -/
structure Response where
  /-- `STATUS`. -/
  status : Status
  /-- `VAL_I`, two's complement. -/
  valI : BitVec 32
  /-- `VAL_Q`, two's complement. -/
  valQ : BitVec 32
deriving DecidableEq, Repr

/-- `LAST_I` and `LAST_Q`, two's complement (10_state.md rule R33). -/
structure LastValue where
  i : BitVec 26
  q : BitVec 26
deriving DecidableEq, Repr

/-- `SG_M` and `SG_V`, the registers of the live sequence generator (10_state.md rule R37). -/
structure SgState where
  /-- `SG_M`, the order. -/
  m : BitVec 4
  /-- `SG_V`, of which the low `SG_M` bits are the shift register. -/
  v : BitVec 12
deriving DecidableEq, Repr

/-- What a micro-operation returns on the internal port (30_encoding.md rule R83). -/
inductive MicroResult where
  | int (z : Int)
  | bit (b : Bool)
deriving DecidableEq, Repr

/-- What the outside presents: a transaction on the ports (30_encoding.md rules R70 and R82) or the HRESET input
(70_reset_and_hazards.md rule R240). -/
inductive Input where
  | transaction (t : Transaction)
  | hreset
deriving DecidableEq, Repr

/-- No reason to stop with a fault exists: every error of the spec is an error response after which the engine takes
the next command (60_exceptions.md rules R210, R213, R221 and R222). The type is closed and has no constructor, so
no step ever raises one (safe). -/
inductive Fault where
deriving DecidableEq, Repr

/-- The inputs the spec gives no meaning, which a model refuses (60_exceptions.md rule R232). Each is safe: the model
stops where the spec says nothing of what follows. -/
inductive Refusal where
  /-- An instruction this model has no meaning for yet, by its mnemonic. Raised by no arm of `exec`; safe. -/
  | notModelled (mnemonic : String)
  /-- A command whose operand list has another length than its command word asks for (30_encoding.md rule R77,
  93_implementation_defined.md entry U13). Raised by the fetch and by `PSEQ`; safe. -/
  | operandCount
  /-- A format U word that is never issued (30_encoding.md rule R83). Raised by the fetch; safe. -/
  | reservedMicro
  /-- A micro-operation with operands of another shape than 30_encoding.md rule R83 gives it. Raised by the fetch;
  safe. -/
  | microOperands
  /-- A micro-operation on a rail that does not exist in the instance's class (10_state.md rules R28 and R30).
  Raised by the `BSB` micro-operations; safe. -/
  | railAbsent
  /-- A micro-operation on a rail that is not live (40_bitbuffer.md rule R109, entry U14). Raised by `BSB.PUSH`,
  `BSB.CORR`, `BSB.CLEAR`, `BSB.DESTROY` and the commands that issue them; safe. -/
  | railNotLive
  /-- `BSB.CREATE` with length 0 or above `NMAX` (40_bitbuffer.md rule R102, entry U14). Raised by `BSB.CREATE` and
  the commands that issue it; safe. -/
  | railLength
  /-- `BSB.CORR` on rails of unequal length (40_bitbuffer.md rule R107, entry U14). Raised by `BSB.CORR` and `PUSH`;
  safe. -/
  | unequalLengths
  /-- `SG.CREATE` while a generator is live (41_generator.md rule R122, entry U14). Raised by `SG.CREATE` and `PGEN`;
  safe. -/
  | sgAlreadyLive
  /-- `SG.CREATE` of an order outside 2 to 12 (41_generator.md rule R122, entry U5). Raised by `SG.CREATE`; safe. -/
  | sgOrder
  /-- A generator micro-operation while no generator is live (41_generator.md rules R123 to R126, entry U14). Raised
  by `SG.RESET`, `SG.NEXT`, `SG.LEN` and `SG.DESTROY`; safe. -/
  | sgNotLive
deriving DecidableEq, Repr

/-- The state. The parameters come first: the spec's step takes them as an argument (00_scope.md rule R15) and the
step of `Host.Core` takes a state alone, so they stand here, and nothing ever writes them (notes/assumptions/1.md).
Then the tuple of 10_state.md rule R20, then the ports. A piece of state that the spec says holds no value is absent
(10_state.md rules R31, R33 and R37). -/
structure State where
  /-- `CLASS`, `NMAX`, `SW`, `SG_G`, `SG_A` (00_scope.md rules R8 and R9). -/
  cfg : Config
  /-- `LC` (10_state.md rule R22). -/
  lc : Lifecycle
  /-- `PN` (10_state.md rule R23). -/
  pn : BitVec 24
  /-- `PATH` (10_state.md rule R24). -/
  path : Path
  /-- `REF_I` (10_state.md rule R27); absent while not live. -/
  refI : Option Rail
  /-- `REF_Q` (10_state.md rule R28); absent while not live. -/
  refQ : Option Rail
  /-- `RX_I` (10_state.md rule R29); absent while not live. -/
  rxI : Option Rail
  /-- `RX_Q` (10_state.md rule R30); absent while not live. -/
  rxQ : Option Rail
  /-- `LAST_I` and `LAST_Q`, present iff `LAST_V` = 1 (10_state.md rule R33). -/
  last : Option LastValue
  /-- `ERRLOG` (10_state.md rule R25). -/
  errlog : BitVec 5
  /-- `SG_M` and `SG_V`, present iff `SG_LIVE` = 1 (10_state.md rule R37). -/
  sg : Option SgState
  /-- The inputs still to come, in the order the outside presents them (20_memory.md rule R60). -/
  input : List Input
  /-- The response port: the response of the most recent command since HRESET (30_encoding.md rule R85). -/
  resp : Option Response
  /-- The internal port: the result of the most recent micro-operation presented on it by itself
  (30_encoding.md rule R83). -/
  uresult : Option MicroResult
deriving DecidableEq, Repr

/-- `LAST_V` (10_state.md rule R33). -/
def State.lastV (s : State) : Bool := s.last.isSome

/-- `SG_LIVE` (10_state.md rule R37). -/
def State.sgLive (s : State) : Bool := s.sg.isSome

/-- The instance with parameters `c` right after HRESET, with nothing presented to it: the column "after HRESET" of
10_state.md rule R40. -/
def State.resetWith (c : Config) : State :=
  { cfg := c, lc := .empty, pn := 0, path := .explicit,
    refI := none, refQ := none, rxI := none, rxQ := none,
    last := none, errlog := 0, sg := none,
    input := [], resp := none, uresult := none }

/-- The machine right after reset, with the default parameters. -/
def State.reset : State := State.resetWith Config.default

end Sys2Proof.Machine
end

