-- ==== Sys2Proof/Machine/Flags.lean ====
section
/-! DEFINITION. The numeric codes of the registers and of the response, and the sticky error log
(10_state.md rules R22 to R25 and R34, 30_encoding.md rules R85 and R88). The engine has no condition codes. -/

namespace Sys2Proof.Machine

/-- The code of `CLASS` (00_scope.md rule R8). -/
def classCode : CorrClass → BitVec 2
  | .rr => 0
  | .cr => 1
  | .cc => 2

/-- The code of `LC` (10_state.md rule R22). -/
def lcCode : Lifecycle → BitVec 2
  | .empty => 0
  | .ready => 1
  | .bound => 2

/-- The code of `PATH` (10_state.md rule R24). -/
def pathCode : Path → BitVec 1
  | .explicit => 0
  | .generator => 1

/-- The bit of `ERRLOG` that belongs to a cause (10_state.md rule R25). -/
def errBit : ErrCause → Nat
  | .opcode => 0
  | .state => 1
  | .sel => 2
  | .len0 => 3
  | .lenMax => 4

/-- The code of `STATUS` (30_encoding.md rule R85). -/
def statusCode : Status → BitVec 4
  | .ok => 0
  | .error .opcode => 1
  | .error .state => 2
  | .error .sel => 3
  | .error .len0 => 4
  | .error .lenMax => 5

/-- `ERRLOG` with the bit of a cause set and no bit cleared (10_state.md rule R25). -/
def setErr (log : BitVec 5) (c : ErrCause) : BitVec 5 := log ||| (1#5 <<< errBit c)

/-- `VAL_I` of `INFO`: `PN` in bits 23:0 (30_encoding.md rule R88). -/
def infoI (s : State) : BitVec 32 := s.pn.setWidth 32

/-- `VAL_Q` of `INFO` (30_encoding.md rule R88, 45_diagnostics.md rule R201). -/
def infoQ (s : State) : BitVec 32 :=
  (lcCode s.lc).setWidth 32 ||| ((classCode s.cfg.cls).setWidth 32 <<< 2)
    ||| ((pathCode s.path).setWidth 32 <<< 4) ||| ((BitVec.ofBool s.lastV).setWidth 32 <<< 5)
    ||| (s.errlog.setWidth 32 <<< 8)

end Sys2Proof.Machine
end

