-- ==== Sys2Proof/Machine/Operands.lean ====
section
/-! DEFINITION. Operand words, their components and the hard decision (30_encoding.md section 5), and which
components and rails a class uses. -/

namespace Sys2Proof.Machine

/-- Is a symbol complex (30_encoding.md rule R79)? Then `RX_Q` exists (10_state.md rule R30). -/
def symbolComplex : CorrClass → Bool
  | .rr => false
  | .cr => true
  | .cc => true

/-- Is a pattern element complex (30_encoding.md rule R79)? Then `REF_Q` exists (10_state.md rule R28). -/
def patternComplex : CorrClass → Bool
  | .rr => false
  | .cr => false
  | .cc => true

/-- Does the rail exist in the class (10_state.md rules R27 to R30)? -/
def railExists (cls : CorrClass) : RailName → Bool
  | .refI => true
  | .refQ => patternComplex cls
  | .rxI => true
  | .rxQ => symbolComplex cls

/-- `I` = `OPW[SW-1:0]`, the in-phase component (30_encoding.md rule R78). -/
def compI (sw : Nat) (w : OpWord) : BitVec sw := w.extractLsb' 0 sw

/-- `Q` = `OPW[2*SW-1:SW]`, the quadrature component (30_encoding.md rule R78). -/
def compQ (sw : Nat) (w : OpWord) : BitVec sw := w.extractLsb' sw sw

/-- The hard decision: bit 1 iff the signed component is greater than 0 (30_encoding.md rule R80). -/
def hd {n : Nat} (x : BitVec n) : Bool := decide (0 < x.toInt)

/-- The hard decision of an operand word's in-phase component. -/
def hdI (sw : Nat) (w : OpWord) : Bool := hd (compI sw w)

/-- The hard decision of an operand word's quadrature component. -/
def hdQ (sw : Nat) (w : OpWord) : Bool := hd (compQ sw w)

/-- The operand word of the complex sample `(x, y)` (30_encoding.md rules R78 and R90). -/
def complexSample (sw : Nat) (x y : Int) : OpWord :=
  (BitVec.ofInt sw x).setWidth 64 ||| ((BitVec.ofInt sw y).setWidth 64 <<< sw)

/-- The operand word of the real sample `x`: the unused `Q` field is 0 (30_encoding.md rule R90). -/
def realSample (sw : Nat) (x : Int) : OpWord := complexSample sw x 0

end Sys2Proof.Machine
end

