-- ==== Sys2Proof/Machine/Ops.lean ====
section
/-! DEFINITION. The shared operations: ending a command, raising an error, HRESET, the bit buffer, the sequence
generator and the accumulator. An operation outside its precondition is refused (60_exceptions.md rule R232). -/

namespace Sys2Proof.Machine

/-! ## Ending a command -/

/-- `done(i, q)`: the command completes with `STATUS` = `OK` (30_encoding.md rule R86). -/
def State.done (s : State) (i q : BitVec 32) : State :=
  { s with resp := some { status := .ok, valI := i, valQ := q } }

/-- `raise E_x`, the engine's way of taking an exception: the `ERRLOG` bit is set, the response carries the code and
two zeros, and nothing else is written (00_scope.md rule R13, 60_exceptions.md rules R212 and R216). There is no
handler, no saved state and nothing to return from (rules R221 and R222). -/
def State.raise (s : State) (c : ErrCause) : State :=
  { s with errlog := setErr s.errlog c, resp := some { status := .error c, valI := 0, valQ := 0 } }

/-- HRESET: every piece of state takes its reset value; the parameters are not affected and the engine waits for its
next command (70_reset_and_hazards.md rules R240 and R241). -/
def State.hreset (s : State) : State :=
  { State.resetWith s.cfg with input := s.input }

/-- The outcome of a body of micro-operations, one of which may be refused. -/
def toOutcome : Except Refusal State → Host.Outcome State Fault Refusal
  | .ok s => .next s
  | .error r => .refused r

/-- The state check of a command that needs the lifecycle state `l`, and the body behind it
(60_exceptions.md rule R214). -/
def inLifecycle (l : Lifecycle) (s : State) (body : Except Refusal State) : Host.Outcome State Fault Refusal :=
  if s.lc = l then toOutcome body else .next (s.raise .state)

/-! ## The bit buffer (40_bitbuffer.md) -/

/-- `BSB.CREATE len`: a rail of zeros, refused unless 1 ≤ len ≤ `NMAX` (rule R102). -/
def bsbCreate (nmax len : Nat) : Except Refusal Rail :=
  if 1 ≤ len ∧ len ≤ nmax then .ok (List.replicate len false) else .error .railLength

/-- The contents of a rail after a push: every element one index down, the new bit at the newest index
(rule R104). The length never changes. -/
def railPush : Rail → Bool → Rail
  | [], _ => []
  | _ :: r, b => r ++ [b]

/-- `BSB.PUSH R, b`, refused on a rail that is not live (rules R104 and R109). -/
def bsbPush (r : Option Rail) (b : Bool) : Except Refusal Rail :=
  match r with
  | some r => .ok (railPush r b)
  | none => .error .railNotLive

/-- The loop of `BSB.CORR`: plus one for each index where the rails agree, minus one where they differ
(rule R106). -/
def corr : Rail → Rail → Int
  | a :: as, b :: bs => (if a = b then 1 else -1) + corr as bs
  | _, _ => 0

/-- `BSB.CORR A, B`, refused on a rail that is not live and on unequal lengths (rules R106, R107 and R109). -/
def bsbCorr (a b : Option Rail) : Except Refusal Int :=
  match a, b with
  | some a, some b => if a.length = b.length then .ok (corr a b) else .error .unequalLengths
  | _, _ => .error .railNotLive

/-- `BSB.CLEAR R`: every bit 0, the length unchanged; refused on a rail that is not live (rules R108 and R109). -/
def bsbClear (r : Option Rail) : Except Refusal Rail :=
  match r with
  | some r => .ok (List.replicate r.length false)
  | none => .error .railNotLive

/-- `BSB.DESTROY R`: the rail is no longer live; refused on a rail that is not live (rule R109). The answer is the
rail's place after it. -/
def bsbDestroy (r : Option Rail) : Except Refusal (Option Rail) :=
  match r with
  | some _ => .ok none
  | none => .error .railNotLive

/-- The loop `for k in 0 .. len-1: R[k] <- b_k` over a rail (43_pattern.md rule R151). -/
def writeBits : Rail → List Bool → Rail
  | _ :: r, b :: bs => b :: writeBits r bs
  | r, _ => r

/-- A rail created with the length of a list of bits and then written with them, first bit at index 0
(43_pattern.md rules R151 and R156). -/
def railOf (nmax : Nat) (bits : List Bool) : Except Refusal Rail := do
  let r ← bsbCreate nmax bits.length
  return writeBits r bits

/-- An operation on a rail that exists only in some classes: where it does not exist nothing happens to its place. -/
def ifExists (present : Bool) (r : Option Rail) (op : Except Refusal (Option Rail)) : Except Refusal (Option Rail) :=
  if present then op else .ok r

/-! ## Rails by name -/

/-- The place of a rail. -/
def State.rail (s : State) : RailName → Option Rail
  | .refI => s.refI
  | .refQ => s.refQ
  | .rxI => s.rxI
  | .rxQ => s.rxQ

/-- The state with another rail, or none, in a rail's place. -/
def State.setRail (s : State) (n : RailName) (r : Option Rail) : State :=
  match n with
  | .refI => { s with refI := r }
  | .refQ => { s with refQ := r }
  | .rxI => { s with rxI := r }
  | .rxQ => { s with rxQ := r }

/-- A micro-operation that names a rail, refused where the rail does not exist in the class (10_state.md rules R28
and R30). -/
def onRail (s : State) (n : RailName) (body : Except Refusal State) : Except Refusal State :=
  if railExists s.cfg.cls n then body else .error .railAbsent

/-! ## The sequence generator (41_generator.md) -/

/-- The sum of the bits modulo 2 (00_scope.md rule R14). -/
def parity {n : Nat} (x : BitVec n) : Bool :=
  (List.range n).foldl (fun p k => xor p (x.getLsbD k)) false

/-- 2^m - 1 as a mask of m bits. -/
def sgMask (m : Nat) : BitVec 12 := BitVec.ofNat 12 (2 ^ m - 1)

/-- `SG_G[m]` (00_scope.md rule R9). -/
def sgG (c : Config) (m : Nat) : BitVec 12 := c.sgG.getD (m - 2) 0

/-- `SG_A[m]` (00_scope.md rule R9). -/
def sgA (c : Config) (m : Nat) : BitVec 12 := c.sgA.getD (m - 2) 0

/-- The feedback bit of rule R124, which is also the bit `SG.NEXT` returns. -/
def sgFeedback (c : Config) (m : Nat) (v : BitVec 12) : Bool := parity ((v &&& sgMask m) &&& sgG c m)

/-- The register after one step: shifted left, the feedback bit in bit 0, m bits kept (rule R124). -/
def sgStep (c : Config) (m : Nat) (v : BitVec 12) : BitVec 12 :=
  ((v <<< 1) ||| (BitVec.ofBool (sgFeedback c m v)).setWidth 12) &&& sgMask m

/-- `SG.CREATE m`, refused while a generator is live and for an order outside 2 to 12 (rule R122). -/
def sgCreate (c : Config) (g : Option SgState) (m : Nat) : Except Refusal SgState :=
  match g with
  | some _ => .error .sgAlreadyLive
  | none => if 2 ≤ m ∧ m ≤ 12 then .ok { m := BitVec.ofNat 4 m, v := sgA c m } else .error .sgOrder

/-- `SG.RESET` of a live generator (rule R123). -/
def sgReset (c : Config) (g : SgState) : SgState := { g with v := sgA c g.m.toNat }

/-- `SG.NEXT` of a live generator: the bit and the generator after it (rule R124). -/
def sgNext (c : Config) (g : SgState) : Bool × SgState :=
  (sgFeedback c g.m.toNat g.v, { g with v := sgStep c g.m.toNat g.v })

/-- `SG.LEN` of a live generator (rule R125). -/
def sgLen (g : SgState) : Nat := 2 ^ g.m.toNat - 1

/-- `n` times `SG.NEXT`: the bits, first bit first, and the generator after them (43_pattern.md rule R156). -/
def sgDrain (c : Config) : Nat → SgState → List Bool × SgState
  | 0, g => ([], g)
  | n + 1, g =>
    let (b, g₁) := sgNext c g
    let (bs, g₂) := sgDrain c n g₁
    (b :: bs, g₂)

/-- A generator micro-operation other than `SG.CREATE`, refused while no generator is live
(rules R123 to R126). -/
def onSg (s : State) (body : SgState → State) : Except Refusal State :=
  match s.sg with
  | some g => .ok (body g)
  | none => .error .sgNotLive

/-! ## The accumulator (44_correlator.md rules R181 and R182) -/

/-- The numerators of the combined correlation: a in class RR, (a, b) in class CR, (a - d, b + c) in class CC, over
the elementary correlations of rule R181. -/
def accumulate (cls : CorrClass) (refI refQ rxI rxQ : Option Rail) : Except Refusal (Int × Int) :=
  match cls with
  | .rr => do
    let a ← bsbCorr refI rxI
    return (a, 0)
  | .cr => do
    let a ← bsbCorr refI rxI
    let b ← bsbCorr refI rxQ
    return (a, b)
  | .cc => do
    let a ← bsbCorr refI rxI
    let b ← bsbCorr refI rxQ
    let c ← bsbCorr refQ rxI
    let d ← bsbCorr refQ rxQ
    return (a - d, b + c)

end Sys2Proof.Machine
end

