-- ==== Sys2Proof/Machine/Bitbuffer.lean ====
section
/-! DEFINITION. The micro-operations of the BSB unit, presented by themselves on the internal port: BSB.CREATE,
BSB.PUSH, BSB.CORR, BSB.CLEAR, BSB.DESTROY (40_bitbuffer.md). The commands use the same operations of
Sys2Proof/Machine/Ops.lean. -/

namespace Sys2Proof.Machine

/-- `r <- BSB.CREATE len` (40_bitbuffer.md rule R102). -/
def execBsbCreate (r : RailName) (len : Nat) (s : State) : Host.Outcome State Fault Refusal :=
  toOutcome <| onRail s r do
    let rail ← bsbCreate s.cfg.nmax len
    return { s.setRail r (some rail) with uresult := none }

/-- `BSB.PUSH r, b` (40_bitbuffer.md rule R104). -/
def execBsbPush (r : RailName) (b : Bool) (s : State) : Host.Outcome State Fault Refusal :=
  toOutcome <| onRail s r do
    let rail ← bsbPush (s.rail r) b
    return { s.setRail r (some rail) with uresult := none }

/-- `BSB.CORR a, b` (40_bitbuffer.md rules R106 and R107): neither rail is written. -/
def execBsbCorr (a b : RailName) (s : State) : Host.Outcome State Fault Refusal :=
  toOutcome <| onRail s a <| onRail s b do
    let z ← bsbCorr (s.rail a) (s.rail b)
    return { s with uresult := some (.int z) }

/-- `BSB.CLEAR r` (40_bitbuffer.md rule R108). -/
def execBsbClear (r : RailName) (s : State) : Host.Outcome State Fault Refusal :=
  toOutcome <| onRail s r do
    let rail ← bsbClear (s.rail r)
    return { s.setRail r (some rail) with uresult := none }

/-- `BSB.DESTROY r` (40_bitbuffer.md rule R109). -/
def execBsbDestroy (r : RailName) (s : State) : Host.Outcome State Fault Refusal :=
  toOutcome <| onRail s r do
    let place ← bsbDestroy (s.rail r)
    return { s.setRail r place with uresult := none }

end Sys2Proof.Machine
end

