-- ==== Sys2Proof/Machine/Correlator.lean ====
section
/-! DEFINITION. The correlator: BIND, RESET, PUSH, DESTROY (44_correlator.md). -/

namespace Sys2Proof.Machine

/-- `BIND` (44_correlator.md rule R171). -/
def execBind (s : State) : Host.Outcome State Fault Refusal :=
  inLifecycle .ready s do
    let rxI ← bsbCreate s.cfg.nmax s.pn.toNat
    let rxQ ← ifExists (symbolComplex s.cfg.cls) s.rxQ (some <$> bsbCreate s.cfg.nmax s.pn.toNat)
    return { s with rxI := some rxI, rxQ := rxQ, last := none, lc := .bound }.done 0 0

/-- `RESET`, the correlator reset (44_correlator.md rule R174). -/
def execReset (s : State) : Host.Outcome State Fault Refusal :=
  inLifecycle .bound s do
    let rxI ← bsbClear s.rxI
    let rxQ ← ifExists (symbolComplex s.cfg.cls) s.rxQ (some <$> bsbClear s.rxQ)
    return { s with rxI := some rxI, rxQ := rxQ, last := none }.done 0 0

/-- `PUSH` (44_correlator.md rule R178): hard decision, shift in, correlate and combine on the rails after the shift,
cache the numerators and return them. The division by n is carried by the representation (rule R183). -/
def execPush (op : OpWord) (s : State) : Host.Outcome State Fault Refusal :=
  inLifecycle .bound s do
    let rxI ← bsbPush s.rxI (hdI s.cfg.sw op)
    let rxQ ← ifExists (symbolComplex s.cfg.cls) s.rxQ (some <$> bsbPush s.rxQ (hdQ s.cfg.sw op))
    let (i, q) ← accumulate s.cfg.cls s.refI s.refQ (some rxI) rxQ
    return { s with rxI := some rxI, rxQ := rxQ,
                    last := some { i := BitVec.ofInt 26 i, q := BitVec.ofInt 26 q } }.done
      (BitVec.ofInt 32 i) (BitVec.ofInt 32 q)

/-- `DESTROY` (44_correlator.md rule R190): the received rails always go, the pattern only if the generator path
built it. -/
def execDestroy (s : State) : Host.Outcome State Fault Refusal :=
  inLifecycle .bound s do
    let rxI ← bsbDestroy s.rxI
    let rxQ ← ifExists (symbolComplex s.cfg.cls) s.rxQ (bsbDestroy s.rxQ)
    match s.path with
    | .generator => do
      let refI ← bsbDestroy s.refI
      let refQ ← ifExists (patternComplex s.cfg.cls) s.refQ (bsbDestroy s.refQ)
      return { s with rxI := rxI, rxQ := rxQ, refI := refI, refQ := refQ, last := none,
                      pn := 0, path := .explicit, lc := .empty }.done 0 0
    | .explicit => return { s with rxI := rxI, rxQ := rxQ, last := none, lc := .ready }.done 0 0

end Sys2Proof.Machine
end

