-- ==== Sys2Proof/Machine/Diagnostics.lean ====
section
/-! DEFINITION. The diagnostic commands: INFO, RDLAST (45_diagnostics.md). -/

namespace Sys2Proof.Machine

/-- `INFO`, legal in every lifecycle state (45_diagnostics.md rule R201). -/
def execInfo (s : State) : Host.Outcome State Fault Refusal := .next (s.done (infoI s) (infoQ s))

/-- `RDLAST` (45_diagnostics.md rule R203). -/
def execRdlast (s : State) : Host.Outcome State Fault Refusal :=
  inLifecycle .bound s <|
    match s.last with
    | none => .ok (s.raise .state)
    | some v => .ok (s.done (v.i.signExtend 32) (v.q.signExtend 32))

end Sys2Proof.Machine
end

