-- ==== Sys2Proof/Machine/Generator.lean ====
section
/-! DEFINITION. The micro-operations of the SG unit, presented by themselves on the internal port: SG.CREATE,
SG.RESET, SG.NEXT, SG.LEN, SG.DESTROY (41_generator.md). `PGEN` uses the same operations of
Sys2Proof/Machine/Ops.lean. -/

namespace Sys2Proof.Machine

/-- `SG.CREATE m` (41_generator.md rule R122). -/
def execSgCreate (m : Nat) (s : State) : Host.Outcome State Fault Refusal :=
  toOutcome do
    let g ← sgCreate s.cfg s.sg m
    return { s with sg := some g, uresult := none }

/-- `SG.RESET` (41_generator.md rule R123). -/
def execSgReset (s : State) : Host.Outcome State Fault Refusal :=
  toOutcome <| onSg s fun g => { s with sg := some (sgReset s.cfg g), uresult := none }

/-- `SG.NEXT` (41_generator.md rule R124). -/
def execSgNext (s : State) : Host.Outcome State Fault Refusal :=
  toOutcome <| onSg s fun g =>
    { s with sg := some (sgNext s.cfg g).2, uresult := some (.bit (sgNext s.cfg g).1) }

/-- `SG.LEN` (41_generator.md rule R125): the state of the unit is unchanged. -/
def execSgLen (s : State) : Host.Outcome State Fault Refusal :=
  toOutcome <| onSg s fun g => { s with uresult := some (.int (sgLen g)) }

/-- `SG.DESTROY` (41_generator.md rule R126): `SG_M` and `SG_V` hold no value from here on. -/
def execSgDestroy (s : State) : Host.Outcome State Fault Refusal :=
  toOutcome <| onSg s fun _ => { s with sg := none, uresult := none }

end Sys2Proof.Machine
end

