-- ==== Sys2Proof/Machine/Selector.lean ====
section
/-! DEFINITION. The generator selector, the SEL unit (42_selector.md). -/

namespace Sys2Proof.Machine

/-- `sel_lookup`: the order of a selector of the catalog, `none` for one outside it (42_selector.md rule R143). -/
def selLookup (sel : BitVec 4) : Option Nat :=
  if sel.toNat ≤ 10 then some (sel.toNat + 2) else none

end Sys2Proof.Machine
end

