-- ==== Sys2Proof/Machine/Pattern.lean ====
section
/-! DEFINITION. Reference pattern construction: PSEQ, PGEN, PDESTROY (43_pattern.md). -/

namespace Sys2Proof.Machine

/-- The body of `PSEQ` behind its checks (43_pattern.md rule R151). -/
def buildExplicit (n : BitVec 24) (burst : List OpWord) (s : State) : Except Refusal State := do
  let refI ← railOf s.cfg.nmax (burst.map (hdI s.cfg.sw))
  let refQ ← ifExists (patternComplex s.cfg.cls) s.refQ (some <$> railOf s.cfg.nmax (burst.map (hdQ s.cfg.sw)))
  return { s with refI := some refI, refQ := refQ, pn := n, path := .explicit, lc := .ready }.done 0 0

/-- `PSEQ` (43_pattern.md rules R151 and R152). A burst of another length than n is no command
(30_encoding.md rule R77). -/
def execPseq (n : BitVec 24) (burst : List OpWord) (s : State) : Host.Outcome State Fault Refusal :=
  if burst.length ≠ n.toNat then .refused .operandCount
  else if s.lc ≠ .empty then .next (s.raise .state)
  else if n.toNat = 0 then .next (s.raise .len0)
  else if s.cfg.nmax < n.toNat then .next (s.raise .lenMax)
  else toOutcome (buildExplicit n burst s)

/-- The body of `PGEN` behind its checks (43_pattern.md rule R156). The generator is created, reset before each drain
and destroyed inside the command, so the state's own place for it ends empty. In class CC the same generator is reset
again and drained a second time (rule R158); in the other classes it is drained once (rule R159). -/
def buildFromGenerator (m : Nat) (s : State) : Except Refusal State := do
  let g ← sgCreate s.cfg s.sg m
  let n := sgLen g
  let (bitsI, g₁) := sgDrain s.cfg n (sgReset s.cfg g)
  let refI ← railOf s.cfg.nmax bitsI
  let refQ ← ifExists (patternComplex s.cfg.cls) s.refQ
    (some <$> railOf s.cfg.nmax (sgDrain s.cfg n (sgReset s.cfg g₁)).1)
  return { s with refI := some refI, refQ := refQ, sg := none,
                  pn := BitVec.ofNat 24 n, path := .generator, lc := .ready }.done 0 0

/-- `PGEN` (43_pattern.md rules R156 and R157). -/
def execPgen (sel : BitVec 4) (s : State) : Host.Outcome State Fault Refusal :=
  if s.lc ≠ .empty then .next (s.raise .state)
  else match selLookup sel with
    | none => .next (s.raise .sel)
    | some m => toOutcome (buildFromGenerator m s)

/-- `PDESTROY` (43_pattern.md rule R162). -/
def execPdestroy (s : State) : Host.Outcome State Fault Refusal :=
  inLifecycle .ready s do
    let refI ← bsbDestroy s.refI
    let refQ ← ifExists (patternComplex s.cfg.cls) s.refQ (bsbDestroy s.refQ)
    return { s with refI := refI, refQ := refQ, pn := 0, path := .explicit, lc := .empty }.done 0 0

end Sys2Proof.Machine
end

