-- ==== Sys2Proof/Machine/Dispatch.lean ====
section
/-! DEFINITION. The meaning of each instruction, one arm per constructor. -/

namespace Sys2Proof.Machine

def exec (i : Instr) (s : State) : Host.Outcome State Fault Refusal :=
  match i with
  | .pseq n burst => Sys2Proof.Machine.execPseq n burst s
  | .pgen sel => Sys2Proof.Machine.execPgen sel s
  | .bind => Sys2Proof.Machine.execBind s
  | .reset => Sys2Proof.Machine.execReset s
  | .push op => Sys2Proof.Machine.execPush op s
  | .destroy => Sys2Proof.Machine.execDestroy s
  | .info => Sys2Proof.Machine.execInfo s
  | .rdlast => Sys2Proof.Machine.execRdlast s
  | .pdestroy => Sys2Proof.Machine.execPdestroy s
  | .bsbCreate r len => Sys2Proof.Machine.execBsbCreate r len s
  | .bsbPush r b => Sys2Proof.Machine.execBsbPush r b s
  | .bsbCorr a b => Sys2Proof.Machine.execBsbCorr a b s
  | .bsbClear r => Sys2Proof.Machine.execBsbClear r s
  | .bsbDestroy r => Sys2Proof.Machine.execBsbDestroy r s
  | .sgCreate m => Sys2Proof.Machine.execSgCreate m s
  | .sgReset => Sys2Proof.Machine.execSgReset s
  | .sgNext => Sys2Proof.Machine.execSgNext s
  | .sgLen => Sys2Proof.Machine.execSgLen s
  | .sgDestroy => Sys2Proof.Machine.execSgDestroy s

end Sys2Proof.Machine
end

