-- ==== Sys2Proof/WellFormed.lean ====
section
/-! DEFINITION. Well-formed instructions: the one relation between an instruction's fields that its encoding
demands. -/

namespace Sys2Proof

/-- `PSEQ n` comes with exactly n operand words (30_encoding.md rule R77). No other row relates its fields: the
widths are in the types, and the values a rule raises on or refuses are legal encodings. -/
def Instr.wf : Instr → Bool
  | .pseq n burst => burst.length == n.toNat
  | .pgen _ => true
  | .bind => true
  | .reset => true
  | .push _ => true
  | .destroy => true
  | .info => true
  | .rdlast => true
  | .pdestroy => true
  | .bsbCreate _ _ => true
  | .bsbPush _ _ => true
  | .bsbCorr _ _ => true
  | .bsbClear _ => true
  | .bsbDestroy _ => true
  | .sgCreate _ => true
  | .sgReset => true
  | .sgNext => true
  | .sgLen => true
  | .sgDestroy => true

end Sys2Proof
end

