-- ==== Sys2Proof/Decode.lean ====
section
/-! DEFINITION. The decoder, total on every transaction, and after it the encoder (30_encoding.md sections 2 to 6,
8 and 9). -/

namespace Sys2Proof

/-- Why a transaction is no instruction. `illegalOpcode` and `reservedArg` are the two illegal command words of
30_encoding.md rules R74 and R75, which the engine answers with `E_OPCODE`. The other three are no input of the
engine at all: a burst of the wrong length (rule R77), a micro-operation word that is never issued (rule R83), and
operands of another shape than rule R83 gives the micro-operation. -/
inductive DecodeError where
  | illegalOpcode
  | reservedArg
  | operandCount
  | reservedMicro
  | microOperands
deriving DecidableEq, Repr

/-! ## Fields of a command word (rules R71 and R73) -/

/-- `OPC`, bits 31:24 (rule R71). -/
def fieldOpc (w : CommandWord) : BitVec 8 := w.extractLsb' 24 8

/-- `ARG`, bits 23:0 (rule R71); for `PSEQ` this is `N` (rule R73). -/
def fieldArg (w : CommandWord) : BitVec 24 := w.extractLsb' 0 24

/-- `SEL`, bits 3:0 of a `PGEN` word (rule R73). -/
def fieldSel (w : CommandWord) : BitVec 4 := w.extractLsb' 0 4

/-- Bits 23:4 of a `PGEN` word, reserved, must be 0 (rule R73). -/
def fieldPgenReserved (w : CommandWord) : BitVec 20 := w.extractLsb' 4 20

/-- How many operand words the command word takes, whatever the state (rule R77): `N` for a `PSEQ` word, 1 for a
legal `PUSH` word, 0 for everything else, every illegal word included. -/
def operandWords (w : CommandWord) : Nat :=
  if fieldOpc w = 0x01#8 then (fieldArg w).toNat
  else if fieldOpc w = 0x05#8 ∧ fieldArg w = 0 then 1
  else 0

/-! ## Decoding -/

/-- A command whose `ARG` is wholly reserved (rule R73). -/
def decodeBare (w : CommandWord) (i : Instr) : Except DecodeError Instr :=
  if fieldArg w = 0 then .ok i else .error .reservedArg

/-- The decoding procedure of rule R89, for a burst that has the length of rule R77. -/
def decodeOpcode (w : CommandWord) (burst : List OpWord) : Except DecodeError Instr :=
  match fieldOpc w with
  | 0x01#8 => .ok (.pseq (fieldArg w) burst)
  | 0x02#8 => if fieldPgenReserved w = 0 then .ok (.pgen (fieldSel w)) else .error .reservedArg
  | 0x03#8 => decodeBare w .bind
  | 0x04#8 => decodeBare w .reset
  | 0x05#8 =>
    match burst with
    | [op] => decodeBare w (.push op)
    | _ => .error .reservedArg
  | 0x06#8 => decodeBare w .destroy
  | 0x07#8 => decodeBare w .info
  | 0x08#8 => decodeBare w .rdlast
  | 0x09#8 => decodeBare w .pdestroy
  | _ => .error .illegalOpcode

/-- A host transaction: first the framing of rule R77, then rule R89. -/
def decodeCommand (w : CommandWord) (burst : List OpWord) : Except DecodeError Instr :=
  if burst.length = operandWords w then decodeOpcode w burst else .error .operandCount

/-- The micro-operation map of rule R83. -/
def decodeMicro (w : MicroWord) (args : List MicroArg) : Except DecodeError Instr :=
  match w with
  | 0x10#8 => match args with
    | [.rail r, .int len] => .ok (.bsbCreate r len)
    | _ => .error .microOperands
  | 0x11#8 => match args with
    | [.rail r, .bit b] => .ok (.bsbPush r b)
    | _ => .error .microOperands
  | 0x12#8 => match args with
    | [.rail a, .rail b] => .ok (.bsbCorr a b)
    | _ => .error .microOperands
  | 0x13#8 => match args with
    | [.rail r] => .ok (.bsbClear r)
    | _ => .error .microOperands
  | 0x14#8 => match args with
    | [.rail r] => .ok (.bsbDestroy r)
    | _ => .error .microOperands
  | 0x20#8 => match args with
    | [.int m] => .ok (.sgCreate m)
    | _ => .error .microOperands
  | 0x21#8 => match args with
    | [] => .ok .sgReset
    | _ => .error .microOperands
  | 0x22#8 => match args with
    | [] => .ok .sgNext
    | _ => .error .microOperands
  | 0x23#8 => match args with
    | [] => .ok .sgLen
    | _ => .error .microOperands
  | 0x24#8 => match args with
    | [] => .ok .sgDestroy
    | _ => .error .microOperands
  | _ => .error .reservedMicro

/-- The decoder. -/
def decode : Transaction → Except DecodeError Instr
  | .command w burst => decodeCommand w burst
  | .micro w args => decodeMicro w args

/-! ## Encoding -/

/-- A command word from its two fields (rule R71). -/
def commandWord (opc : BitVec 8) (arg : BitVec 24) : CommandWord := (opc.setWidth 32 <<< 24) ||| arg.setWidth 32

/-- The words of an instruction (rules R72, R73, R83 and R90). -/
def encode : Instr → Transaction
  | .pseq n burst => .command (commandWord 0x01#8 n) burst
  | .pgen sel => .command (commandWord 0x02#8 (sel.setWidth 24)) []
  | .bind => .command (commandWord 0x03#8 0) []
  | .reset => .command (commandWord 0x04#8 0) []
  | .push op => .command (commandWord 0x05#8 0) [op]
  | .destroy => .command (commandWord 0x06#8 0) []
  | .info => .command (commandWord 0x07#8 0) []
  | .rdlast => .command (commandWord 0x08#8 0) []
  | .pdestroy => .command (commandWord 0x09#8 0) []
  | .bsbCreate r len => .micro 0x10#8 [.rail r, .int len]
  | .bsbPush r b => .micro 0x11#8 [.rail r, .bit b]
  | .bsbCorr a b => .micro 0x12#8 [.rail a, .rail b]
  | .bsbClear r => .micro 0x13#8 [.rail r]
  | .bsbDestroy r => .micro 0x14#8 [.rail r]
  | .sgCreate m => .micro 0x20#8 [.int m]
  | .sgReset => .micro 0x21#8 []
  | .sgNext => .micro 0x22#8 []
  | .sgLen => .micro 0x23#8 []
  | .sgDestroy => .micro 0x24#8 []

/-! ## The opcode table's numbering of words -/

/-- Operands of zeros for a micro-operation word: the rail numbered first, the number 0, the bit 0. -/
def zeroMicroArgs (w : MicroWord) : List MicroArg :=
  match w with
  | 0x10#8 => [.rail .refI, .int 0]
  | 0x11#8 => [.rail .refI, .bit false]
  | 0x12#8 => [.rail .refI, .rail .refI]
  | 0x13#8 => [.rail .refI]
  | 0x14#8 => [.rail .refI]
  | 0x20#8 => [.int 0]
  | _ => []

/-- The transaction of a table row's word: 8 bits on the internal port, 32 bits on the command port, with operands
of zeros. The table has rows of these two widths only. -/
def tableTransaction (nbits w : Nat) : Option Transaction :=
  if nbits = 8 then some (.micro (BitVec.ofNat 8 w) (zeroMicroArgs (BitVec.ofNat 8 w)))
  else if nbits = 32 then
    some (.command (BitVec.ofNat 32 w) (List.replicate (operandWords (BitVec.ofNat 32 w)) 0))
  else none

/-- The instruction the decoder reads from a table row's word, `none` where it refuses. -/
def decodeTableWord (nbits w : Nat) : Option Instr :=
  match tableTransaction nbits w with
  | some t => (decode t).toOption
  | none => none

end Sys2Proof
end

