-- ==== Sys2Proof/Machine/Fetch.lean ====
section
/-! DEFINITION. Taking the next input from the ports and decoding it. -/

namespace Sys2Proof.Machine

/-- What the next input asks for. The state carried is the one with the input taken off the ports. -/
inductive Fetched where
  /-- Nothing is presented. -/
  | idle
  /-- HRESET is applied. -/
  | hreset (s : State)
  /-- An illegal command word (30_encoding.md rules R74 and R75). -/
  | illegal (s : State)
  /-- No input of the engine at all. -/
  | stop (r : Refusal)
  /-- An instruction. -/
  | instr (i : Instr) (s : State)
deriving DecidableEq, Repr

/-- What a transaction asks for: an instruction, an illegal command word, or nothing the engine can take
(30_encoding.md rules R74, R75, R77 and R83). -/
def fetchTransaction (t : Transaction) (s : State) : Fetched :=
  match decode t with
  | .ok i => .instr i s
  | .error .illegalOpcode => .illegal s
  | .error .reservedArg => .illegal s
  | .error .operandCount => .stop .operandCount
  | .error .reservedMicro => .stop .reservedMicro
  | .error .microOperands => .stop .microOperands

/-- The next input, in the order presented, one at a time (20_memory.md rule R60). -/
def fetch (s : State) : Fetched :=
  match s.input with
  | [] => .idle
  | .hreset :: rest => .hreset { s with input := rest }
  | .transaction t :: rest => fetchTransaction t { s with input := rest }

/-- The state with a transaction presented as the next input. -/
def State.present (s : State) (t : Transaction) : State := { s with input := .transaction t :: s.input }

end Sys2Proof.Machine
end

