-- ==== Sys2Proof/Machine/Step.lean ====
section
/-! DEFINITION. One step of the engine: one command, one HRESET, or one micro-operation presented by itself
(00_scope.md rule R15); with nothing presented the engine is idle (60_exceptions.md rule R230). -/

namespace Sys2Proof.Machine

/-- One step. -/
def step (s : State) : Host.Outcome State Fault Refusal :=
  match fetch s with
  | .idle => .next s
  | .hreset s' => .next s'.hreset
  | .illegal s' => .next (s'.raise .opcode)
  | .stop r => .refused r
  | .instr i s' => exec i s'

/-- The state with a table row's word presented as the next input, its operands zeros. -/
def State.withFetchWord (s : State) (nbits w : Nat) : State :=
  match tableTransaction nbits w with
  | some t => s.present t
  | none => s

end Sys2Proof.Machine
end

