-- ==== Sys2Proof/Machine/Assembly.lean ====
section
/-! DEFINITION. Lines of the spec's assembly, already read as terms, and the instructions they stand for
(30_encoding.md rules R90 and R91, 42_selector.md rules R140 and R141). No step depends on this file. -/

namespace Sys2Proof.Machine

/-- The eleven codes of the catalog (42_selector.md rule R140). -/
inductive CatalogCode where
  | n3 | n7 | n15 | n31 | n63 | n127 | n255 | n511 | n1023 | n2047 | n4095
deriving DecidableEq, Repr

/-- The selector of a code (42_selector.md rule R141, 30_encoding.md rule R90). -/
def CatalogCode.sel : CatalogCode → BitVec 4
  | .n3 => 0
  | .n7 => 1
  | .n15 => 2
  | .n31 => 3
  | .n63 => 4
  | .n127 => 5
  | .n255 => 6
  | .n511 => 7
  | .n1023 => 8
  | .n2047 => 9
  | .n4095 => 10

/-- A sample as it is written: `x`, or `(x, y)` (30_encoding.md rule R90). -/
inductive Sample where
  | real (x : Int)
  | complex (x y : Int)
deriving DecidableEq, Repr

/-- The operand of `PGEN`: a catalog name or a numeric selector (30_encoding.md rule R90). -/
inductive Selector where
  | name (c : CatalogCode)
  | number (k : BitVec 4)
deriving DecidableEq, Repr

/-- The number of a selector. -/
def Selector.sel : Selector → BitVec 4
  | .name c => c.sel
  | .number k => k

/-- A line of assembly, the two pseudo-instructions among them. -/
inductive AsmLine where
  | pseq (n : BitVec 24) (samples : List Sample)
  | pgen (k : Selector)
  | bind
  | reset
  | push (s : Sample)
  | destroy
  | info
  | rdlast
  | pdestroy
  | openSeq (n : BitVec 24) (samples : List Sample)
  | openGen (k : Selector)
deriving DecidableEq, Repr

/-- Does the number fit a component of `sw` bits? DESIGN CHOICE: a sample outside it is no line
(notes/assumptions/14.md). -/
def fits (sw : Nat) (x : Int) : Bool := decide (-(2 ^ (sw - 1) : Int) ≤ x ∧ x < 2 ^ (sw - 1))

/-- The operand word of a sample, none where the sample is of the other kind than the class takes
(30_encoding.md rule R90). -/
def assembleSample (sw : Nat) (takesComplex : Bool) : Sample → Option OpWord
  | .real x => if !takesComplex && fits sw x then some (realSample sw x) else none
  | .complex x y => if takesComplex && fits sw x && fits sw y then some (complexSample sw x y) else none

/-- The operand words of samples in order, none where one of them has none. -/
def assembleSamples (sw : Nat) (takesComplex : Bool) : List Sample → Option (List OpWord)
  | [] => some []
  | s :: rest => do
    let w ← assembleSample sw takesComplex s
    let ws ← assembleSamples sw takesComplex rest
    return w :: ws

/-- The burst of a vector of n samples in the class. -/
def assembleVector (c : Config) (n : BitVec 24) (samples : List Sample) : Option (List OpWord) :=
  if samples.length = n.toNat then assembleSamples c.sw (patternComplex c.cls) samples else none

/-- The instructions of a line, none for a line that is not allowed in the class (30_encoding.md rules R90
and R91). -/
def assemble (c : Config) : AsmLine → Option (List Instr)
  | .pseq n samples => (assembleVector c n samples).map fun b => [.pseq n b]
  | .pgen k => some [.pgen k.sel]
  | .bind => some [.bind]
  | .reset => some [.reset]
  | .push s => (assembleSample c.sw (symbolComplex c.cls) s).map fun w => [.push w]
  | .destroy => some [.destroy]
  | .info => some [.info]
  | .rdlast => some [.rdlast]
  | .pdestroy => some [.pdestroy]
  | .openSeq n samples => (assembleVector c n samples).map fun b => Sys2Proof.openSeq n b
  | .openGen k => some (Sys2Proof.openGen k.sel)

end Sys2Proof.Machine
end

