-- ==== Sys2Proof/Machine/Expansion.lean ====
section
/-! DEFINITION. What a line of assembly does, the pseudo-instructions among them (30_encoding.md rules R90 and R91). A
command presented by itself follows its own rule; the second command of an expansion follows rule R91
(notes/assumptions/11.md). -/

namespace Sys2Proof.Machine

/-- Has the last command answered with an error (30_encoding.md rule R85)? -/
def State.answeredError (s : State) : Bool :=
  match s.resp with
  | some r => decide (r.status ≠ .ok)
  | none => false

/-- The `BIND` that ends an expansion: where the first command of the expansion has raised it raises `E_STATE`, in every
lifecycle state, and elsewhere it is `BIND` (30_encoding.md rule R91). -/
def execExpansionBind (s : State) : Host.Outcome State Fault Refusal :=
  if s.answeredError then .next (s.raise .state) else execBind s

/-- An expansion: its first command, and then the `BIND` that ends it (30_encoding.md rule R91). -/
def execExpansion (first : Host.Outcome State Fault Refusal) : Host.Outcome State Fault Refusal :=
  match first with
  | .next t => execExpansionBind t
  | .fault f => .fault f
  | .refused r => .refused r

/-- `OPEN.SEQ n, [...]` (30_encoding.md rule R91). -/
def execOpenSeq (n : BitVec 24) (burst : List OpWord) (s : State) : Host.Outcome State Fault Refusal :=
  execExpansion (execPseq n burst s)

/-- `OPEN.GEN code` (30_encoding.md rule R91). -/
def execOpenGen (sel : BitVec 4) (s : State) : Host.Outcome State Fault Refusal :=
  execExpansion (execPgen sel s)

/-- What a line does, none for a line that is not allowed in the class (30_encoding.md rules R90 and R91). -/
def execLine (l : AsmLine) (s : State) : Option (Host.Outcome State Fault Refusal) :=
  match l with
  | .pseq n samples => (assembleVector s.cfg n samples).map fun b => exec (.pseq n b) s
  | .pgen k => some (exec (.pgen k.sel) s)
  | .bind => some (exec .bind s)
  | .reset => some (exec .reset s)
  | .push x => (assembleSample s.cfg.sw (symbolComplex s.cfg.cls) x).map fun w => exec (.push w) s
  | .destroy => some (exec .destroy s)
  | .info => some (exec .info s)
  | .rdlast => some (exec .rdlast s)
  | .pdestroy => some (exec .pdestroy s)
  | .openSeq n samples => (assembleVector s.cfg n samples).map fun b => execOpenSeq n b s
  | .openGen k => some (execOpenGen k.sel s)

end Sys2Proof.Machine
end

