-- ==== Sys2Proof/Safety.lean ====
section
/-! DEFINITION. The terms claims use: the invariants of 10_state.md rule R39, the counts and sequences the rules
speak of, and the correlation as a rational pair. -/

namespace Sys2Proof.Machine

/-! ## Counts over rails -/

/-- The number of indices at which two rails differ, the Hamming distance of 40_bitbuffer.md rule R106. -/
def hamming : Rail → Rail → Nat
  | a :: as, b :: bs => (if a = b then 0 else 1) + hamming as bs
  | _, _ => 0

/-- `popcount` of a rail (00_scope.md rule R14). -/
def ones (r : Rail) : Nat := r.count true

/-- A rail of zeros, the window of "no history" (40_bitbuffer.md rule R102). -/
def zeros (n : Nat) : Rail := List.replicate n false

/-- The elementary correlation as `L - 2 * hamming` (40_bitbuffer.md rule R106). -/
def agreement (a b : Rail) : Int := (a.length : Int) - 2 * (hamming a b : Int)

/-- The rail after a push: the oldest element gone, every other one index down, the new bit newest
(40_bitbuffer.md rule R104). -/
def shifted (r : Rail) (b : Bool) : Rail := r.tail ++ [b]

/-! ## The generator's sequence (41_generator.md rules R121 and R124) -/

/-- The register k steps after a reset. -/
def sgAfter (c : Config) (m : Nat) : Nat → BitVec 12
  | 0 => sgA c m
  | k + 1 => sgStep c m (sgAfter c m k)

/-- The bit `b_k` of the stream after a reset. -/
def sgBit (c : Config) (m k : Nat) : Bool := sgFeedback c m (sgAfter c m k)

/-- The first n bits of the stream after a reset. -/
def sgBits (c : Config) (m n : Nat) : Rail := (List.range n).map (sgBit c m)

/-- The register returns to its initial value after exactly 2^m - 1 steps and not earlier: the constraint of
00_scope.md rule R9 and requirement (b) of 41_generator.md rule R121. -/
def MaximalPeriod (c : Config) (m : Nat) : Prop :=
  sgAfter c m (2 ^ m - 1) = sgA c m ∧ ∀ k, 0 < k → k < 2 ^ m - 1 → sgAfter c m k ≠ sgA c m

/-- A live generator stands where some number of steps after a reset leads. -/
def SgOnOrbit (s : State) : Prop :=
  ∀ g, s.sg = some g → (2 ≤ g.m.toNat ∧ g.m.toNat ≤ 12) ∧ ∃ k, g.v = sgAfter s.cfg g.m.toNat k

/-! ## Rails of a state -/

/-- The rail is live and has the length. -/
def LiveWith (place : Option Rail) (n : Nat) : Prop := ∃ r, place = some r ∧ r.length = n

/-- The rail is live with the length if it is to be there, and absent otherwise. -/
def LiveIff (there : Bool) (place : Option Rail) (n : Nat) : Prop :=
  if there then LiveWith place n else place = none

/-! ## The invariant at a command boundary (10_state.md rule R39) -/

/-- The bounds on the numerators (44_correlator.md rule R186). -/
def NumeratorBound (cls : CorrClass) (n : Nat) (i q : Int) : Prop :=
  match cls with
  | .rr => i.natAbs ≤ n ∧ i % 2 = (n : Int) % 2 ∧ q = 0
  | .cr => i.natAbs ≤ n ∧ i % 2 = (n : Int) % 2 ∧ q.natAbs ≤ n ∧ q % 2 = (n : Int) % 2
  | .cc => i % 2 = 0 ∧ q % 2 = 0 ∧ i.natAbs + q.natAbs ≤ 2 * n

/-- Clauses (2) to (7) of 10_state.md rule R39. Clause (1) is the type of `LC`, and clause (8) relates two
states. -/
structure AtBoundary (s : State) : Prop where
  /-- Clause (2). -/
  emptyHoldsNothing : s.lc = .empty → s.pn = 0 ∧ s.path = .explicit ∧ s.refI = none ∧ s.refQ = none
  /-- Clause (3). -/
  patternIsLive : s.lc ≠ .empty → (1 ≤ s.pn.toNat ∧ s.pn.toNat ≤ s.cfg.nmax) ∧
    LiveWith s.refI s.pn.toNat ∧ LiveIff (patternComplex s.cfg.cls) s.refQ s.pn.toNat
  /-- Clause (4). -/
  generatorPattern : s.path = .generator →
    (∃ m, 2 ≤ m ∧ m ≤ 12 ∧ s.pn.toNat = 2 ^ m - 1) ∧ (s.cfg.cls = .cc → s.refQ = s.refI)
  /-- Clauses (2) and (5). -/
  unboundHasNoWindow : s.lc ≠ .bound → s.rxI = none ∧ s.rxQ = none
  /-- Clause (5). -/
  boundHasWindow : s.lc = .bound →
    LiveWith s.rxI s.pn.toNat ∧ LiveIff (symbolComplex s.cfg.cls) s.rxQ s.pn.toNat
  /-- Clause (6). -/
  cacheIsBounded : ∀ v, s.last = some v →
    s.lc = .bound ∧ NumeratorBound s.cfg.cls s.pn.toNat v.i.toInt v.q.toInt
  /-- Clause (7). -/
  generatorIsDead : s.sg = none

/-- Is the input one of the host's: a command or HRESET, not a micro-operation? "Micro-operations are never visible
on their own at the host port" (00_scope.md rule R15). -/
def Input.isHost : Input → Bool
  | .transaction (.command _ _) => true
  | .transaction (.micro _ _) => false
  | .hreset => true

/-- No micro-operation is presented by itself: the engine is driven through its host ports only. -/
def HostDriven (s : State) : Prop := ∀ x ∈ s.input, x.isHost = true

/-- The invariant of an engine driven by a host. -/
structure HostInv (s : State) : Prop where
  config : s.cfg.Wf
  hostDriven : HostDriven s
  boundary : AtBoundary s

/-! ## The invariant of the units, micro-operations included -/

/-- Every live rail exists in the class and has a legal length (40_bitbuffer.md rule R100), and a live generator has
a supported order and a register of that many bits (10_state.md rule R37). -/
structure UnitInv (s : State) : Prop where
  config : s.cfg.Wf
  rails : ∀ n r, s.rail n = some r →
    railExists s.cfg.cls n = true ∧ 1 ≤ r.length ∧ r.length ≤ s.cfg.nmax
  generator : ∀ g, s.sg = some g → (2 ≤ g.m.toNat ∧ g.m.toNat ≤ 12) ∧ g.v.toNat < 2 ^ g.m.toNat

/-! ## Errors -/

/-- The state of a command that has raised a cause, written out field by field (60_exceptions.md rules R212 and
R216). -/
def raisedState (s : State) (bit : Nat) (c : ErrCause) : State :=
  { s with
    errlog := s.errlog ||| BitVec.ofNat 5 (2 ^ bit)
    resp := some { status := .error c, valI := 0, valQ := 0 } }

/-- The state a command needs, `none` for a command that is legal in every state (60_exceptions.md rule R214). -/
def neededState : Instr → Option Lifecycle
  | .pseq _ _ => some .empty
  | .pgen _ => some .empty
  | .bind => some .ready
  | .pdestroy => some .ready
  | .reset => some .bound
  | .push _ => some .bound
  | .destroy => some .bound
  | .rdlast => some .bound
  | .info => none
  | .bsbCreate _ _ => none
  | .bsbPush _ _ => none
  | .bsbCorr _ _ => none
  | .bsbClear _ => none
  | .bsbDestroy _ => none
  | .sgCreate _ => none
  | .sgReset => none
  | .sgNext => none
  | .sgLen => none
  | .sgDestroy => none

/-- The lifecycle state a command leaves when it completes (10_state.md rule R36). A micro-operation leaves the state
as it is. -/
def lifecycleAfter (s : State) : Instr → Lifecycle
  | .pseq _ _ => .ready
  | .pgen _ => .ready
  | .bind => .bound
  | .reset => .bound
  | .push _ => .bound
  | .destroy => if s.path = .generator then .empty else .ready
  | .info => s.lc
  | .rdlast => .bound
  | .pdestroy => .empty
  | .bsbCreate _ _ => s.lc
  | .bsbPush _ _ => s.lc
  | .bsbCorr _ _ => s.lc
  | .bsbClear _ => s.lc
  | .bsbDestroy _ => s.lc
  | .sgCreate _ => s.lc
  | .sgReset => s.lc
  | .sgNext => s.lc
  | .sgLen => s.lc
  | .sgDestroy => s.lc

/-- The conditions on a command's operands, and for `RDLAST` on the cache, beside its lifecycle state
(10_state.md rule R36). -/
def operandsValid (s : State) : Instr → Prop
  | .pseq n _ => 1 ≤ n.toNat ∧ n.toNat ≤ s.cfg.nmax
  | .pgen sel => sel.toNat ≤ 10
  | .bind => True
  | .reset => True
  | .push _ => True
  | .destroy => True
  | .info => True
  | .rdlast => s.lastV = true
  | .pdestroy => True
  | .bsbCreate _ _ => True
  | .bsbPush _ _ => True
  | .bsbCorr _ _ => True
  | .bsbClear _ => True
  | .bsbDestroy _ => True
  | .sgCreate _ => True
  | .sgReset => True
  | .sgNext => True
  | .sgLen => True
  | .sgDestroy => True

/-- The `ERRLOG` bit of a cause (60_exceptions.md rule R211). -/
def causeBit : ErrCause → Nat
  | .opcode => 0
  | .state => 1
  | .sel => 2
  | .len0 => 3
  | .lenMax => 4

/-! ## Command words as numbers -/

/-- `OPC` as a number (30_encoding.md rule R71). -/
def opcNat (w : CommandWord) : Nat := w.toNat / 2 ^ 24

/-- `ARG` as a number (30_encoding.md rule R71). -/
def argNat (w : CommandWord) : Nat := w.toNat % 2 ^ 24

/-- The illegal words of 30_encoding.md rule R89 (1) and (2). -/
abbrev IllegalWord (w : CommandWord) : Prop :=
  opcNat w = 0 ∨ 10 ≤ opcNat w ∨ (opcNat w = 2 ∧ 16 ≤ argNat w) ∨
    (3 ≤ opcNat w ∧ opcNat w ≤ 9 ∧ argNat w ≠ 0)

/-- The command of a word and its burst (30_encoding.md rules R72 and R73). -/
def CommandOf (w : CommandWord) (burst : List OpWord) (i : Instr) : Prop :=
  (opcNat w = 1 ∧ i = .pseq (BitVec.ofNat 24 (argNat w)) burst) ∨
  (opcNat w = 2 ∧ i = .pgen (BitVec.ofNat 4 (argNat w)) ∧ burst = []) ∨
  (opcNat w = 3 ∧ i = .bind ∧ burst = []) ∨
  (opcNat w = 4 ∧ i = .reset ∧ burst = []) ∨
  (opcNat w = 5 ∧ ∃ op, i = .push op ∧ burst = [op]) ∨
  (opcNat w = 6 ∧ i = .destroy ∧ burst = []) ∨
  (opcNat w = 7 ∧ i = .info ∧ burst = []) ∨
  (opcNat w = 8 ∧ i = .rdlast ∧ burst = []) ∨
  (opcNat w = 9 ∧ i = .pdestroy ∧ burst = [])

/-! ## The correlation as a value -/

/-- The rational pair of a response over the pattern length n (30_encoding.md rule R87). -/
def Response.value (r : Response) (n : Nat) : ℚ × ℚ := ((r.valI.toInt : ℚ) / n, (r.valQ.toInt : ℚ) / n)

/-! ## Runs of pushes -/

/-- The inputs that push the symbols in order, one command each. -/
def pushInputs (ops : List OpWord) : List Input := ops.map fun op => .transaction (encode (.push op))

end Sys2Proof.Machine
end

