-- ==== Sys2Proof/Certificates/Slice0/Obligations.lean ====
section
/-! DEFINITION. The statements about the engine, in the order of OBLIGATIONS.json. -/

open Sys2Proof Sys2Proof.Machine

/-! ## Encoding and stepping -/

/-- Decoding the words of a well-formed instruction gives the instruction back, every operand at every value. -/
def Obligations.DecodeOfEncodeIsTheInstruction : Prop :=
  ∀ i : Instr, i.wf = true → decode (encode i) = .ok i

/-- A transaction that decodes is exactly the words of the instruction it decodes to, and that instruction is
well-formed: every word has one meaning. -/
def Obligations.EncodeOfDecodeIsTheTransaction : Prop :=
  ∀ (t : Transaction) (i : Instr), decode t = .ok i → encode i = t ∧ i.wf = true

/-- The decoding procedure of rule R89, as the host sees it: an illegal word takes no operand words and raises
`E_OPCODE` whatever the state, and every other word runs the command of rules R72 and R73. -/
def Obligations.EveryCommandWordIsACommandOrRaises : Prop :=
  ∀ (s : State) (w : CommandWord) (burst : List OpWord) (rest : List Input),
    s.input = .transaction (.command w burst) :: rest → burst.length = operandWords w →
    (IllegalWord w → burst = [] ∧ step s = .next (raisedState { s with input := rest } 0 .opcode)) ∧
    (¬ IllegalWord w → ∃ i, CommandOf w burst i ∧ step s = exec i { s with input := rest })

/-- Rule R77: the number of operand words follows from the command word alone, a command with another number has no
meaning, and a command that is taken, raising or not, has taken its operand words and nothing else. -/
def Obligations.OperandWordsFollowFromTheWord : Prop :=
  ∀ (s : State) (w : CommandWord) (burst : List OpWord) (rest : List Input),
    s.input = .transaction (.command w burst) :: rest →
    (operandWords w = if opcNat w = 1 then argNat w else if opcNat w = 5 ∧ argNat w = 0 then 1 else 0) ∧
    (burst.length ≠ operandWords w → step s = .refused .operandCount) ∧
    (∀ t, step s = .next t → burst.length = operandWords w ∧ t.input = rest)

/-- Words of every family, written out from the tables of rules R72, R73 and R83, decode to their instructions. -/
def Obligations.SampleWordsDecode : Prop :=
  decode (.command 0x01000002#32 [1, 2]) = .ok (.pseq 2 [1, 2]) ∧
  decode (.command 0x0200000A#32 []) = .ok (.pgen 10) ∧
  decode (.command 0x03000000#32 []) = .ok .bind ∧
  decode (.command 0x05000000#32 [7]) = .ok (.push 7) ∧
  decode (.command 0x07000000#32 []) = .ok .info ∧
  decode (.micro 0x12#8 [.rail .refI, .rail .rxQ]) = .ok (.bsbCorr .refI .rxQ) ∧
  decode (.micro 0x20#8 [.int 3]) = .ok (.sgCreate 3)

/-- A step runs the decoded instruction on the state with its transaction taken off the ports, and does nothing
else. -/
def Obligations.StepRunsTheDecodedInstruction : Prop :=
  ∀ (s : State) (t : Transaction) (rest : List Input) (i : Instr),
    s.input = .transaction t :: rest → decode t = .ok i → i.wf = true →
    step s = exec i { s with input := rest }

/-- A micro-operation word outside rule R83's table, and one with operands of another shape, are refused by name. -/
def Obligations.ReservedMicroWordsAreRefused : Prop :=
  ∀ (s : State) (w : MicroWord) (args : List MicroArg) (rest : List Input),
    s.input = .transaction (.micro w args) :: rest →
    ((∀ i, encode i ≠ .micro w args) →
      step s = .refused .reservedMicro ∨ step s = .refused .microOperands) ∧
    (w.toNat / 16 = 0 ∨ 3 ≤ w.toNat / 16 ∨ 5 ≤ w.toNat % 16 → step s = .refused .reservedMicro)

/-- Rule R230: with nothing presented the engine keeps all its state. -/
def Obligations.IdleKeepsEverything : Prop :=
  ∀ s : State, s.input = [] → step s = .next s

/-- Rule R240: HRESET gives every piece of state its reset value and leaves the parameters. -/
def Obligations.HresetGivesResetValues : Prop :=
  ∀ (s : State) (rest : List Input), s.input = .hreset :: rest →
    ∃ t, step s = .next t ∧ t.lc = .empty ∧ t.pn = 0 ∧ t.path = .explicit ∧ t.lastV = false ∧
      t.errlog = 0 ∧ t.sgLive = false ∧ t.refI = none ∧ t.refQ = none ∧ t.rxI = none ∧ t.rxQ = none ∧
      t.last = none ∧ t.sg = none ∧ t.cfg = s.cfg ∧ t.input = rest

/-! ## Pattern construction -/

/-- Rule R151: its word, and the explicit path behind its three checks. Everything the rule does not write is
unchanged. -/
def Obligations.PseqBuildsThePattern : Prop :=
  ∀ (s : State) (n : BitVec 24) (burst : List OpWord), burst.length = n.toNat →
    decode (.command (0x01#8 ++ n) burst) = .ok (.pseq n burst) ∧
    exec (.pseq n burst) s = .next (
      if s.lc ≠ .empty then raisedState s 1 .state
      else if n.toNat = 0 then raisedState s 3 .len0
      else if s.cfg.nmax < n.toNat then raisedState s 4 .lenMax
      else { s with
        refI := some (burst.map fun w => decide (0 < (compI s.cfg.sw w).toInt))
        refQ := if s.cfg.cls = .cc then some (burst.map fun w => decide (0 < (compQ s.cfg.sw w).toInt)) else s.refQ
        pn := n, path := .explicit, lc := .ready
        resp := some { status := .ok, valI := 0, valQ := 0 } })

/-- Rules R156, R158 and R159: its word, and the generator path behind its two checks. The rail holds the drained bits, first bit at
index 0; in class CC the quadrature rail is the same; in the other classes it is not written. -/
def Obligations.PgenDrainsTheGenerator : Prop :=
  ∀ (s : State) (sel : BitVec 4), s.sg = none → 4095 ≤ s.cfg.nmax →
    decode (.command (0x02#8 ++ 0#20 ++ sel) []) = .ok (.pgen sel) ∧
    exec (.pgen sel) s = .next (
      if s.lc ≠ .empty then raisedState s 1 .state
      else if 10 < sel.toNat then raisedState s 2 .sel
      else { s with
        refI := some (sgBits s.cfg (sel.toNat + 2) (2 ^ (sel.toNat + 2) - 1))
        refQ := if s.cfg.cls = .cc then some (sgBits s.cfg (sel.toNat + 2) (2 ^ (sel.toNat + 2) - 1)) else s.refQ
        pn := BitVec.ofNat 24 (2 ^ (sel.toNat + 2) - 1), path := .generator, lc := .ready
        resp := some { status := .ok, valI := 0, valQ := 0 } })

/-- Rule R157: the exceptions of `PGEN` in their order, that no other cause is ever raised, and that on every path no
generator is left live. -/
def Obligations.PgenRaisesInOrder : Prop :=
  ∀ (s : State) (sel : BitVec 4),
    (s.lc ≠ .empty → exec (.pgen sel) s = .next (raisedState s 1 .state)) ∧
    (s.lc = .empty → 11 ≤ sel.toNat → exec (.pgen sel) s = .next (raisedState s 2 .sel)) ∧
    (s.sg = none → ∀ t, exec (.pgen sel) s = .next t → t.sg = none ∧
      ∀ r, t.resp = some r → r.status = .ok ∨ r.status = .error .state ∨ r.status = .error .sel)

/-- Rule R160: the bits depend on the selector and the generator's parameters alone, whatever came before. -/
def Obligations.PgenDependsOnSelectorAndTableOnly : Prop :=
  ∀ (s s' t t' : State) (sel : BitVec 4),
    s.lc = .empty → s'.lc = .empty → sel.toNat ≤ 10 →
    s.cfg.sgG = s'.cfg.sgG → s.cfg.sgA = s'.cfg.sgA →
    exec (.pgen sel) s = .next t → exec (.pgen sel) s' = .next t' →
    t.refI = t'.refI ∧ t.pn = t'.pn ∧ (s.cfg.cls = .cc → t.refQ = t'.refI)

/-- Rules R141 and R143: the catalog, entry by entry. -/
def Obligations.CatalogMapsSelectorsToOrders : Prop :=
  [0#4, 1#4, 2#4, 3#4, 4#4, 5#4, 6#4, 7#4, 8#4, 9#4, 10#4].map selLookup =
      [2, 3, 4, 5, 6, 7, 8, 9, 10, 11, 12].map some ∧
    ([11#4, 12#4, 13#4, 14#4, 15#4].map selLookup = List.replicate 5 none) ∧
    [2, 3, 4, 5, 6, 7, 8, 9, 10, 11, 12].map (fun m => 2 ^ m - 1) =
      [3, 7, 15, 31, 63, 127, 255, 511, 1023, 2047, 4095]

/-- Rule R162: its word, and releasing an unbound pattern. -/
def Obligations.PdestroyReleasesThePattern : Prop :=
  decode (.command 0x09000000#32 []) = .ok .pdestroy ∧
  ∀ s : State,
    (∀ ri, s.lc = .ready → s.refI = some ri → (s.cfg.cls = .cc → s.refQ ≠ none) →
      exec .pdestroy s = .next { s with
        refI := none, refQ := if s.cfg.cls = .cc then none else s.refQ
        pn := 0, path := .explicit, lc := .empty
        resp := some { status := .ok, valI := 0, valQ := 0 } }) ∧
    (s.lc ≠ .ready → exec .pdestroy s = .next (raisedState s 1 .state))

/-! ## The correlator -/

/-- Rule R171: its word, and the fresh window of zeros. -/
def Obligations.BindCreatesAZeroWindow : Prop :=
  decode (.command 0x03000000#32 []) = .ok .bind ∧
  ∀ s : State,
    (s.lc = .ready → 1 ≤ s.pn.toNat → s.pn.toNat ≤ s.cfg.nmax →
      exec .bind s = .next { s with
        rxI := some (zeros s.pn.toNat), rxQ := if s.cfg.cls = .rr then s.rxQ else some (zeros s.pn.toNat)
        last := none, lc := .bound
        resp := some { status := .ok, valI := 0, valQ := 0 } }) ∧
    (s.lc ≠ .ready → exec .bind s = .next (raisedState s 1 .state))

/-- Rule R174: its word; every received rail that exists is cleared, nothing is reallocated. -/
def Obligations.ResetClearsTheWindow : Prop :=
  decode (.command 0x04000000#32 []) = .ok .reset ∧
  ∀ s : State,
    (∀ xi, s.lc = .bound → s.rxI = some xi → (s.cfg.cls = .rr ∨ ∃ xq, s.rxQ = some xq) →
      exec .reset s = .next { s with
        rxI := some (xi.map fun _ => false)
        rxQ := if s.cfg.cls = .rr then s.rxQ else s.rxQ.map fun xq => xq.map fun _ => false
        last := none
        resp := some { status := .ok, valI := 0, valQ := 0 } }) ∧
    (s.lc ≠ .bound → exec .reset s = .next (raisedState s 1 .state))

/-- The state after `RESET` is the state after the `BIND` that creates the correlator, field for field; and a second
`RESET`, raising or not, leaves the state the first one left. -/
def Obligations.ResetEqualsAFreshBind : Prop :=
  (∀ s : State, HostInv s → s.lc = .bound →
    ∃ t, exec .reset s = .next t ∧
      exec .bind { s with lc := .ready, rxI := none, rxQ := none, last := none } = .next t) ∧
  (∀ s t : State, exec .reset s = .next t → exec .reset t = .next t)

/-- Rules R178 and R182: its word, the state check, and in each class shift, correlate after the shift, combine, cache
the numerators and return them: a in class RR, (a, b) in class CR, (a - d, b + c) in class CC. -/
def Obligations.PushScoresEveryClass : Prop :=
  ∀ (s : State) (op : OpWord),
    decode (.command 0x05000000#32 [op]) = .ok (.push op) ∧
    (s.lc ≠ .bound → exec (.push op) s = .next (raisedState s 1 .state)) ∧
    (∀ ri xi yi : Rail, s.lc = .bound → s.cfg.cls = .rr → s.refI = some ri → s.rxI = some xi →
      ri.length = xi.length → ri ≠ [] → yi = shifted xi (hdI s.cfg.sw op) →
      exec (.push op) s = .next { s with
        rxI := some yi
        last := some { i := BitVec.ofInt 26 (agreement ri yi), q := 0 }
        resp := some { status := .ok, valI := BitVec.ofInt 32 (agreement ri yi), valQ := 0 } }) ∧
    (∀ ri xi xq yi yq : Rail, s.lc = .bound → s.cfg.cls = .cr → s.refI = some ri → s.rxI = some xi →
      s.rxQ = some xq → ri.length = xi.length → ri.length = xq.length → ri ≠ [] →
      yi = shifted xi (hdI s.cfg.sw op) → yq = shifted xq (hdQ s.cfg.sw op) →
      exec (.push op) s = .next { s with
        rxI := some yi, rxQ := some yq
        last := some { i := BitVec.ofInt 26 (agreement ri yi), q := BitVec.ofInt 26 (agreement ri yq) }
        resp := some { status := .ok
                       valI := BitVec.ofInt 32 (agreement ri yi), valQ := BitVec.ofInt 32 (agreement ri yq) } }) ∧
    (∀ (ri rq xi xq yi yq : Rail) (ni nq : Int), s.lc = .bound → s.cfg.cls = .cc → s.refI = some ri →
      s.refQ = some rq → s.rxI = some xi → s.rxQ = some xq → ri.length = rq.length → ri.length = xi.length →
      ri.length = xq.length → ri ≠ [] →
      yi = shifted xi (hdI s.cfg.sw op) → yq = shifted xq (hdQ s.cfg.sw op) →
      ni = agreement ri yi - agreement rq yq → nq = agreement ri yq + agreement rq yi →
      exec (.push op) s = .next { s with
        rxI := some yi, rxQ := some yq
        last := some { i := BitVec.ofInt 26 ni, q := BitVec.ofInt 26 nq }
        resp := some { status := .ok, valI := BitVec.ofInt 32 ni, valQ := BitVec.ofInt 32 nq } })

/-- Rule R190: its word; the received rails always go, and the pattern with them exactly if the generator path built
it. -/
def Obligations.DestroyReleasesByPath : Prop :=
  decode (.command 0x06000000#32 []) = .ok .destroy ∧
  ∀ s : State,
    (s.lc = .bound → s.rxI ≠ none → (s.cfg.cls = .rr ∨ s.rxQ ≠ none) →
      (s.path = .explicit →
        exec .destroy s = .next { s with
          rxI := none, rxQ := if s.cfg.cls = .rr then s.rxQ else none
          last := none, lc := .ready
          resp := some { status := .ok, valI := 0, valQ := 0 } }) ∧
      (s.path = .generator → s.refI ≠ none → (s.cfg.cls = .cc → s.refQ ≠ none) →
        exec .destroy s = .next { s with
          rxI := none, rxQ := if s.cfg.cls = .rr then s.rxQ else none
          refI := none, refQ := if s.cfg.cls = .cc then none else s.refQ
          last := none, pn := 0, path := .explicit, lc := .empty
          resp := some { status := .ok, valI := 0, valQ := 0 } })) ∧
    (s.lc ≠ .bound → exec .destroy s = .next (raisedState s 1 .state))

/-- `PUSH` never reads `PATH`: the correlator is agnostic to which path built its reference (rule R24). -/
def Obligations.PushIsAgnosticToPath : Prop :=
  ∀ (s t : State) (op : OpWord) (p : Path), exec (.push op) s = .next t →
    exec (.push op) { s with path := p } = .next { t with path := p }

/-! ## Diagnostics -/

/-- Rules R88 and R201: its word, every field of the `INFO` response, and nothing written but the response. -/
def Obligations.InfoReportsEveryField : Prop :=
  decode (.command 0x07000000#32 []) = .ok .info ∧
  ∀ s : State, ∃ r, exec .info s = .next { s with resp := some r } ∧ r.status = .ok ∧
    r.valI.extractLsb' 0 24 = s.pn ∧ r.valI.extractLsb' 24 8 = 0 ∧
    r.valQ.extractLsb' 0 2 = (match s.lc with | .empty => 0#2 | .ready => 1#2 | .bound => 2#2) ∧
    r.valQ.extractLsb' 2 2 = (match s.cfg.cls with | .rr => 0#2 | .cr => 1#2 | .cc => 2#2) ∧
    r.valQ.extractLsb' 4 1 = (match s.path with | .explicit => 0#1 | .generator => 1#1) ∧
    r.valQ.extractLsb' 5 1 = (if s.lastV then 1#1 else 0#1) ∧
    r.valQ.extractLsb' 6 2 = 0 ∧ r.valQ.extractLsb' 8 5 = s.errlog ∧ r.valQ.extractLsb' 13 19 = 0

/-- Rule R203: its word; the cached numerators come back as signed numbers, and without them `E_STATE`. Right after a
`PUSH` that is the answer of the `PUSH`, and no other command writes a value into the cache. -/
def Obligations.RdlastReturnsTheCache : Prop :=
  decode (.command 0x08000000#32 []) = .ok .rdlast ∧
  (∀ s : State,
    (∀ v, s.lc = .bound → s.last = some v → ∃ r, exec .rdlast s = .next { s with resp := some r } ∧
      r.status = .ok ∧ r.valI.toInt = v.i.toInt ∧ r.valQ.toInt = v.q.toInt) ∧
    (s.lc ≠ .bound ∨ s.last = none → exec .rdlast s = .next (raisedState s 1 .state))) ∧
  (∀ (s : State) (op : OpWord), HostInv s → s.lc = .bound →
    ∃ t, exec (.push op) s = .next t ∧ exec .rdlast t = .next t) ∧
  (∀ (s t : State) (i : Instr), i.isCommand = true → (∀ op, i ≠ .push op) → exec i s = .next t →
    t.last = s.last ∨ t.last = none)

/-! ## Errors and what commands leave alone -/

/-- Rule R214: a command in another lifecycle state than the one it needs raises `E_STATE` and changes nothing else;
`RDLAST` needs a cached value too; `INFO` needs nothing. -/
def Obligations.OutOfOrderCommandRaises : Prop :=
  (∀ (i : Instr) (s : State) (l : Lifecycle), i.wf = true → neededState i = some l → s.lc ≠ l →
    exec i s = .next (raisedState s 1 .state)) ∧
  (∀ s : State, s.last = none → exec .rdlast s = .next (raisedState s 1 .state)) ∧
  (∀ s : State, ∃ t r, exec .info s = .next t ∧ t.resp = some r ∧ r.status = .ok)

/-- Rule R36: the lifecycle table. A command in the state it needs with valid operands completes and leaves the table's
state; in another state it answers `E_STATE`; every error leaves the state as it was but for `ERRLOG`; HRESET ends in
`EMPTY`. -/
def Obligations.LifecycleMovesAsTabulated : Prop :=
  (∀ (s : State) (i : Instr), HostInv s → i.isCommand = true → i.wf = true →
    ∃ t r, exec i s = .next t ∧ t.resp = some r ∧
      ((∀ l, neededState i = some l → s.lc = l) → operandsValid s i →
        r.status = .ok ∧ t.lc = lifecycleAfter s i) ∧
      (∀ l, neededState i = some l → s.lc ≠ l → r.status = .error .state) ∧
      (i = .rdlast → s.last = none → r.status = .error .state) ∧
      (∀ c, r.status = .error c → t = raisedState s (causeBit c) c)) ∧
  (∀ (s : State) (rest : List Input), s.input = .hreset :: rest → ∃ t, step s = .next t ∧ t.lc = .empty)

/-- Rules R13 and R212: a command that answers with an error has set the one bit of that cause, answered two zeros,
and left everything else as it was; so has an illegal word. -/
def Obligations.RaisingCommandChangesNothingElse : Prop :=
  (∀ (i : Instr) (s t : State) (r : Response) (c : ErrCause), i.isCommand = true →
    exec i s = .next t → t.resp = some r → r.status = .error c → t = raisedState s (causeBit c) c) ∧
  (∀ (s : State) (w : CommandWord) (rest : List Input), IllegalWord w →
    s.input = .transaction (.command w []) :: rest →
    step s = .next (raisedState { s with input := rest } (causeBit .opcode) .opcode))

/-- Rule R25: a command that raises a cause sets its bit of `ERRLOG`, nothing but HRESET clears a bit, and HRESET
clears them all. -/
def Obligations.ErrlogIsSticky : Prop :=
  (∀ s t : State, step s = .next t → (∀ rest, s.input ≠ .hreset :: rest) → s.errlog &&& t.errlog = s.errlog) ∧
  (∀ (i : Instr) (s t : State) (r : Response) (c : ErrCause), i.isCommand = true → exec i s = .next t →
    t.resp = some r → r.status = .error c → t.errlog.getLsbD (causeBit c) = true) ∧
  (∀ (s : State) (w : CommandWord) (rest : List Input), IllegalWord w →
    s.input = .transaction (.command w []) :: rest → ∃ t, step s = .next t ∧ t.errlog.getLsbD 0 = true) ∧
  (∀ (s t : State) (rest : List Input), s.input = .hreset :: rest → step s = .next t → t.errlog = 0)

/-- The numbers of the response codes, of the `ERRLOG` bits and of the registers (rules R8, R22, R24, R25 and R85). -/
def Obligations.CodesAreAsTabulated : Prop :=
  [Status.ok, .error .opcode, .error .state, .error .sel, .error .len0, .error .lenMax].map statusCode =
    [0, 1, 2, 3, 4, 5] ∧
  [ErrCause.opcode, .state, .sel, .len0, .lenMax].map (setErr 0) = [1, 2, 4, 8, 16] ∧
  [Lifecycle.empty, .ready, .bound].map lcCode = [0, 1, 2] ∧
  [Path.explicit, .generator].map pathCode = [0, 1] ∧
  [CorrClass.rr, .cr, .cc].map classCode = [0, 1, 2]

/-- No command modifies a live reference rail: while a pattern stays, its rails, length and path stay. -/
def Obligations.LivePatternIsImmutable : Prop :=
  ∀ (i : Instr) (s t : State), i.isCommand = true → exec i s = .next t → s.lc ≠ .empty → t.lc ≠ .empty →
    t.refI = s.refI ∧ t.refQ = s.refQ ∧ t.pn = s.pn ∧ t.path = s.path

/-- Rule R8: the class is one of three, numbered 0, 1 and 2, no command changes it, and no step changes any parameter. -/
def Obligations.ParametersNeverChange : Prop :=
  ([CorrClass.rr, .cr, .cc].map classCode = [0, 1, 2] ∧ ∀ c : CorrClass, c ∈ [CorrClass.rr, .cr, .cc]) ∧
  (∀ (i : Instr) (s t : State), exec i s = .next t → t.cfg = s.cfg) ∧
  (∀ s t : State, step s = .next t → t.cfg = s.cfg)

/-- Rule R200: the diagnostic commands write no state but, where one raises, its `ERRLOG` bit. -/
def Obligations.DiagnosticsWriteNoState : Prop :=
  ∀ (s t : State) (i : Instr), i = .info ∨ i = .rdlast → exec i s = .next t →
    t = { s with resp := t.resp, errlog := t.errlog } ∧
    ((∃ r, t.resp = some r ∧ r.status = .ok) → t.errlog = s.errlog) ∧
    exec i t = .next t

/-! ## Operands -/

/-- Rule R80: the hard decision in bits. The sign bit alone is not enough. -/
def Obligations.HardDecisionInBits : Prop :=
  ∀ (n : Nat) (x : BitVec n), (hd x = true ↔ x.msb = false ∧ x ≠ 0) ∧ (hd x = true ↔ 0 < x.toInt)

/-- Rules R79 and R81: only the hard decisions of the components the class uses have an effect. The `Q` field of a real
element and every amplitude have none, on state or response. -/
def Obligations.OnlyUsedHardDecisionsMatter : Prop :=
  (∀ (s : State) (op op' : OpWord), hdI s.cfg.sw op = hdI s.cfg.sw op' →
    (s.cfg.cls ≠ .rr → hdQ s.cfg.sw op = hdQ s.cfg.sw op') → exec (.push op) s = exec (.push op') s) ∧
  (∀ (s : State) (n : BitVec 24) (b b' : List OpWord), b.map (hdI s.cfg.sw) = b'.map (hdI s.cfg.sw) →
    (s.cfg.cls = .cc → b.map (hdQ s.cfg.sw) = b'.map (hdQ s.cfg.sw)) →
    exec (.pseq n b) s = exec (.pseq n b') s)

/-- Rules R78, R90 and R91: a sample of the kind the class takes that fits its components gives the operand word that
holds it, and one of the other kind none; a `PSEQ` line gives one word for each sample in order, of the kind a pattern
element has, and a `PUSH` line the word of its symbol; every other line gives its command, and the pseudo-instructions
their two; the words of the commands are those of the table. That a number which does not fit, or a vector of another
length than n, is no line is the model's choice (notes/assumptions/14.md). -/
def Obligations.AssemblyDeliversTheSamples : Prop :=
  (∀ (sw : Nat) (x : Int), 2 ≤ sw → sw ≤ 32 →
    (-(2 ^ (sw - 1) : Int) ≤ x ∧ x < 2 ^ (sw - 1) → ∃ w, assembleSample sw false (.real x) = some w ∧
      (compI sw w).toInt = x ∧ compQ sw w = 0 ∧ w.toNat < 2 ^ (2 * sw)) ∧
    (¬(-(2 ^ (sw - 1) : Int) ≤ x ∧ x < 2 ^ (sw - 1)) → assembleSample sw false (.real x) = none)) ∧
  (∀ (sw : Nat) (x y : Int), 2 ≤ sw → sw ≤ 32 →
    ((-(2 ^ (sw - 1) : Int) ≤ x ∧ x < 2 ^ (sw - 1)) ∧ (-(2 ^ (sw - 1) : Int) ≤ y ∧ y < 2 ^ (sw - 1)) →
      ∃ w, assembleSample sw true (.complex x y) = some w ∧
        (compI sw w).toInt = x ∧ (compQ sw w).toInt = y ∧ w.toNat < 2 ^ (2 * sw)) ∧
    (¬((-(2 ^ (sw - 1) : Int) ≤ x ∧ x < 2 ^ (sw - 1)) ∧ (-(2 ^ (sw - 1) : Int) ≤ y ∧ y < 2 ^ (sw - 1))) →
      assembleSample sw true (.complex x y) = none)) ∧
  (∀ (sw : Nat) (x y : Int), assembleSample sw true (.real x) = none ∧ assembleSample sw false (.complex x y) = none) ∧
  (∀ (c : Config) (x : Sample) (is : List Instr), assemble c (.push x) = some is ↔
    ∃ w, assembleSample c.sw (symbolComplex c.cls) x = some w ∧ is = [.push w]) ∧
  (∀ (c : Config) (n : BitVec 24) (xs : List Sample) (is : List Instr), assemble c (.pseq n xs) = some is ↔
    ∃ b, b.length = n.toNat ∧ is = [.pseq n b] ∧
      List.Forall₂ (fun x w => assembleSample c.sw (patternComplex c.cls) x = some w) xs b) ∧
  (∀ (c : Config) (n : BitVec 24) (xs : List Sample) (is : List Instr), assemble c (.openSeq n xs) = some is ↔
    ∃ b, assemble c (.pseq n xs) = some [.pseq n b] ∧ is = [.pseq n b, .bind]) ∧
  (∀ (c : Config) (k : Selector), assemble c (.pgen k) = some [.pgen k.sel] ∧
    assemble c (.openGen k) = some [.pgen k.sel, .bind]) ∧
  (∀ c : Config, [AsmLine.bind, .reset, .destroy, .info, .rdlast, .pdestroy].map (assemble c) =
    [[Instr.bind], [.reset], [.destroy], [.info], [.rdlast], [.pdestroy]].map some) ∧
  (∀ k : BitVec 4, (Selector.number k).sel = k) ∧
  ([CatalogCode.n3, .n7, .n15, .n31, .n63, .n127, .n255, .n511, .n1023, .n2047, .n4095].map
    (fun c => (Selector.name c).sel) = [0, 1, 2, 3, 4, 5, 6, 7, 8, 9, 10]) ∧
  (∀ (n : BitVec 24) (b : List OpWord) (k : BitVec 4) (w : OpWord),
    encode (.pseq n b) = .command (0x01000000#32 + n.setWidth 32) b ∧
    encode (.pgen k) = .command (0x02000000#32 + k.setWidth 32) [] ∧
    encode (.push w) = .command 0x05000000#32 [w]) ∧
  [Instr.bind, .reset, .destroy, .info, .rdlast, .pdestroy].map encode =
    [0x03000000#32, 0x04000000, 0x06000000, 0x07000000, 0x08000000, 0x09000000].map (Transaction.command · []) ∧
  (∀ (c : Config) (l : AsmLine) (is : List Instr), assemble c l = some is →
    ∀ i ∈ is, i.wf = true ∧ i.isCommand = true)

/-! ## The bit buffer -/

/-- Rule R102: its word; a new rail of zeros; a length outside 1 to `NMAX` is refused. That the first operand names the
place of the rail, and that a live rail there is replaced, is the model's choice (notes/assumptions/5.md). -/
def Obligations.BsbCreateMakesZeros : Prop :=
  ∀ (s : State) (n : RailName) (len : Nat), railExists s.cfg.cls n = true →
    decode (.micro 0x10#8 [.rail n, .int len]) = .ok (.bsbCreate n len) ∧
    (1 ≤ len → len ≤ s.cfg.nmax →
      exec (.bsbCreate n len) s = .next { s.setRail n (some (zeros len)) with uresult := none }) ∧
    (len = 0 ∨ s.cfg.nmax < len → exec (.bsbCreate n len) s = .refused .railLength)

/-- Rule R104: its word; every element one index down, the oldest lost, the new bit newest, the length unchanged. -/
def Obligations.BsbPushShifts : Prop :=
  ∀ (s : State) (n : RailName) (b : Bool) (r : Rail), railExists s.cfg.cls n = true → s.rail n = some r → r ≠ [] →
    decode (.micro 0x11#8 [.rail n, .bit b]) = .ok (.bsbPush n b) ∧
    ∃ r', exec (.bsbPush n b) s = .next { s.setRail n (some r') with uresult := none } ∧
      r'.length = r.length ∧ (∀ i, i + 1 < r.length → r'[i]? = r[i + 1]?) ∧ r'[r.length - 1]? = some b

/-- Rules R106 and R107: its word; the signed count of agreements minus disagreements on rails of equal length, which
is the length minus twice the number of disagreements, neither rail written; unequal lengths are refused. -/
def Obligations.BsbCorrCountsAgreement : Prop :=
  ∀ (s : State) (m n : RailName) (a b : Rail), railExists s.cfg.cls m = true → railExists s.cfg.cls n = true →
    s.rail m = some a → s.rail n = some b →
    decode (.micro 0x12#8 [.rail m, .rail n]) = .ok (.bsbCorr m n) ∧
    (a.length = b.length →
      exec (.bsbCorr m n) s = .next { s with uresult := some (.int (agreement a b)) } ∧
      ((a.zip b).map fun p => if p.1 = p.2 then (1 : Int) else -1).sum = agreement a b ∧
      -(a.length : Int) ≤ agreement a b ∧ agreement a b ≤ a.length) ∧
    (a.length ≠ b.length → exec (.bsbCorr m n) s = .refused .unequalLengths)

/-- Rule R108: its word; every bit 0, the length unchanged, the rail still live, as after as many pushes of 0 as the
rail is long. -/
def Obligations.BsbClearKeepsTheLength : Prop :=
  ∀ (s : State) (n : RailName) (r : Rail), railExists s.cfg.cls n = true → s.rail n = some r →
    decode (.micro 0x13#8 [.rail n]) = .ok (.bsbClear n) ∧
    ∃ r', exec (.bsbClear n) s = .next { s.setRail n (some r') with uresult := none } ∧
      r'.length = r.length ∧ (∀ b ∈ r', b = false) ∧
      r' = (List.replicate r.length false).foldl railPush r

/-- Rule R109: its word; the rail stops being live, and a micro-operation on a rail that is not live is refused, but for the one
that creates it. -/
def Obligations.BsbDestroyEndsTheRail : Prop :=
  (∀ (s : State) (n : RailName) (r : Rail), railExists s.cfg.cls n = true → s.rail n = some r →
    decode (.micro 0x14#8 [.rail n]) = .ok (.bsbDestroy n) ∧
    exec (.bsbDestroy n) s = .next { s.setRail n none with uresult := none }) ∧
  (∀ (s : State) (n k : RailName) (b : Bool), railExists s.cfg.cls n = true → railExists s.cfg.cls k = true →
    s.rail n = none →
    exec (.bsbPush n b) s = .refused .railNotLive ∧ exec (.bsbClear n) s = .refused .railNotLive ∧
    exec (.bsbDestroy n) s = .refused .railNotLive ∧ exec (.bsbCorr n k) s = .refused .railNotLive ∧
    exec (.bsbCorr k n) s = .refused .railNotLive)

/-- A micro-operation that names a rail the class does not have is refused by name. -/
def Obligations.AbsentRailIsRefused : Prop :=
  ∀ (s : State) (n k : RailName) (b : Bool) (len : Nat), railExists s.cfg.cls n = false →
    exec (.bsbCreate n len) s = .refused .railAbsent ∧ exec (.bsbPush n b) s = .refused .railAbsent ∧
    exec (.bsbClear n) s = .refused .railAbsent ∧ exec (.bsbDestroy n) s = .refused .railAbsent ∧
    exec (.bsbCorr n k) s = .refused .railAbsent ∧ exec (.bsbCorr k n) s = .refused .railAbsent

/-- The laws of the elementary correlation over rails of equal length: range and parity, symmetry, the two extremes,
negation, and the all-zero rail. -/
def Obligations.CorrelationLaws : Prop :=
  ∀ a b : Rail, a.length = b.length →
    (-(a.length : Int) ≤ corr a b ∧ corr a b ≤ a.length) ∧ corr a b % 2 = (a.length : Int) % 2 ∧
    corr a b = corr b a ∧ (corr a b = a.length ↔ a = b) ∧
    corr a (b.map not) = -corr a b ∧
    corr a (zeros a.length) = (a.length : Int) - 2 * (ones a : Int)

/-- Flipping exactly one element of a rail moves the correlation by 2: down if the element agreed, up if not. -/
def Obligations.OneFlippedBitMovesTheCorrelationByTwo : Prop :=
  ∀ (a b : Rail) (k : Nat) (x y : Bool), a.length = b.length → a[k]? = some x → b[k]? = some y →
    corr a (b.set k (!y)) = corr a b + (if x = y then -2 else 2)

/-- After as many pushes as the rail is long only the pushed bits remain, newest last; after fewer, the rest of the
old content stands before them. -/
def Obligations.PushesSlideTheWindow : Prop :=
  ∀ (r : Rail) (bits : List Bool),
    (r.length ≤ bits.length → bits.foldl railPush r = bits.drop (bits.length - r.length)) ∧
    (bits.length < r.length → bits.foldl railPush r = r.drop bits.length ++ bits)

/-! ## The sequence generator -/

/-- Rule R122: its word; creation initialises the register; a live generator and an order outside 2 to 12 are refused. -/
def Obligations.SgCreateInitialises : Prop :=
  ∀ (s : State) (m : Nat),
    decode (.micro 0x20#8 [.int m]) = .ok (.sgCreate m) ∧
    (s.sg = none → 2 ≤ m → m ≤ 12 → exec (.sgCreate m) s = .next { s with
      sg := some { m := BitVec.ofNat 4 m, v := s.cfg.sgA.getD (m - 2) 0 }, uresult := none }) ∧
    (s.sg = none → m < 2 ∨ 12 < m → exec (.sgCreate m) s = .refused .sgOrder) ∧
    (s.sg ≠ none → exec (.sgCreate m) s = .refused .sgAlreadyLive)

/-- Rules R123, R125 and R126: the words, the reset, the length and the destruction of a live generator. Without a live
generator they are refused, and so is `SG.NEXT`. `PGEN` leaves no generator live. -/
def Obligations.SgResetLenDestroy : Prop :=
  ([0x21#8, 0x23#8, 0x24#8].map (fun w => decode (.micro w [])) = [.ok .sgReset, .ok .sgLen, .ok .sgDestroy]) ∧
  (∀ (s t : State) (sel : BitVec 4), s.sg = none → exec (.pgen sel) s = .next t → t.sg = none) ∧
  (∀ (s : State) (i : Instr), s.sg = none → i = .sgReset ∨ i = .sgNext ∨ i = .sgLen ∨ i = .sgDestroy →
    exec i s = .refused .sgNotLive) ∧
  ∀ (s : State) (g : SgState), s.sg = some g →
    exec .sgReset s = .next { s with
      sg := some { g with v := s.cfg.sgA.getD (g.m.toNat - 2) 0 }, uresult := none } ∧
    exec .sgLen s = .next { s with uresult := some (.int (2 ^ g.m.toNat - 1)) } ∧
    exec .sgDestroy s = .next { s with sg := none, uresult := none }

/-- Rule R124: its word; the returned bit is the parity of register and mask over m bits, and the register moves left with that
bit in bit 0, m bits kept. -/
def Obligations.SgNextAdvancesTheRegister : Prop :=
  ∀ (s : State) (g : SgState), s.sg = some g → 2 ≤ g.m.toNat → g.m.toNat ≤ 12 →
    decode (.micro 0x22#8 []) = .ok .sgNext ∧
    ∃ (b : Bool) (v : BitVec 12), exec .sgNext s = .next { s with
        sg := some { m := g.m, v := v }, uresult := some (.bit b) } ∧
      (b = true ↔ (List.range g.m.toNat).countP
        (fun k => g.v.getLsbD k && (s.cfg.sgG.getD (g.m.toNat - 2) 0).getLsbD k) % 2 = 1) ∧
      v.toNat = (2 * g.v.toNat + b.toNat) % 2 ^ g.m.toNat

/-- Every step keeps a live generator on the orbit of its initial state, and where its order has the maximal period the
register of such a generator is never 0. -/
def Obligations.SgRegisterIsNeverZero : Prop :=
  (∀ s t : State, SgOnOrbit s → step s = .next t → SgOnOrbit t) ∧
  (∀ (s : State) (g : SgState), s.cfg.Wf → SgOnOrbit s → s.sg = some g → MaximalPeriod s.cfg g.m.toNat →
    g.v ≠ 0)

/-- For parameters of maximal period, one full period of the stream holds exactly 2^(m-1) ones, and draining it brings
the register back to its initial value. -/
def Obligations.FullPeriodIsBalanced : Prop :=
  ∀ (c : Config) (m : Nat), c.Wf → 2 ≤ m → m ≤ 12 → MaximalPeriod c m →
    ones (sgBits c m (2 ^ m - 1)) = 2 ^ (m - 1) ∧
    (sgDrain c (2 ^ m - 1) { m := BitVec.ofNat 4 m, v := sgA c m }).2.v = sgA c m

/-- Rule R127: every row of the default table is a legal configuration, returning to its initial state after exactly
2^m - 1 steps and not earlier. -/
def Obligations.DefaultTableHasMaximalPeriods : Prop :=
  ∀ m ∈ sgOrders, MaximalPeriod Config.default m

/-! ## Invariants -/

/-- Both invariants hold in every reset state of a legal configuration, and the default configuration is legal. -/
def Obligations.ResetMeetsTheInvariants : Prop :=
  (∀ c : Config, c.Wf → HostInv (State.resetWith c) ∧ UnitInv (State.resetWith c)) ∧
  HostInv State.reset ∧ UnitInv State.reset

/-- Every step of a host-driven engine keeps the invariant of rule R39, from every state that meets it. -/
def Obligations.StepKeepsTheHostInvariant : Prop :=
  ∀ s t : State, HostInv s → step s = .next t → HostInv t

/-- Every step, micro-operations included, keeps the invariant of the units. -/
def Obligations.StepKeepsTheUnitInvariant : Prop :=
  ∀ s t : State, UnitInv s → step s = .next t → UnitInv t

/-- A host-driven engine never stops on a well-formed command: every one of them completes, with a response. -/
def Obligations.EveryHostCommandCompletes : Prop :=
  ∀ (s : State) (i : Instr), HostInv s → i.isCommand = true → i.wf = true →
    ∃ t r, exec i s = .next t ∧ t.resp = some r

/-! ## Whole runs -/

/-- Class RR: pushing symbols with the pattern's own hard decisions, in order, ends in the correlation 1. -/
def Obligations.PerfectAlignmentOfARealPattern : Prop :=
  ∀ (s : State) (ops : List OpWord), HostInv s → s.lc = .bound → s.cfg.cls = .rr →
    s.refI = some (ops.map (hdI s.cfg.sw)) → s.input = pushInputs ops →
    ∃ t r, Host.Core.run Sys2Proof.core ops.length s = .next t ∧ t.resp = some r ∧ r.status = .ok ∧
      r.value s.pn.toNat = (1, 0) ∧ t.rxI = t.refI

/-- Class CR: pushing the pattern's own hard decisions with a quadrature component that decides to 0 ends in real part 1
and the imaginary part of an all-zero quadrature rail. -/
def Obligations.PerfectAlignmentOfComplexSymbols : Prop :=
  ∀ (s : State) (ops : List OpWord) (ri : Rail), HostInv s → s.lc = .bound → s.cfg.cls = .cr →
    s.refI = some ri → ri = ops.map (hdI s.cfg.sw) → (∀ op ∈ ops, hdQ s.cfg.sw op = false) →
    s.input = pushInputs ops →
    ∃ t r, Host.Core.run Sys2Proof.core ops.length s = .next t ∧ t.resp = some r ∧ r.status = .ok ∧
      r.value s.pn.toNat = (1, ((s.pn.toNat : ℚ) - 2 * (ones ri : ℚ)) / (s.pn.toNat : ℚ))

/-- Class CC: pushing the pattern's own hard decisions ends in a purely imaginary correlation, and pushing those of the
conjugates (no imaginary component 0) ends in the correlation 2. -/
def Obligations.PerfectAlignmentOfAComplexPattern : Prop :=
  ∀ (s : State) (ops : List OpWord) (ri rq : Rail), HostInv s → s.lc = .bound → s.cfg.cls = .cc →
    s.refI = some ri → s.refQ = some rq → ri = ops.map (hdI s.cfg.sw) → s.input = pushInputs ops →
    ∃ t r, Host.Core.run Sys2Proof.core ops.length s = .next t ∧ t.resp = some r ∧ r.status = .ok ∧
      (rq = ops.map (hdQ s.cfg.sw) →
        r.value s.pn.toNat = (0, 2 * (agreement ri rq : ℚ) / (s.pn.toNat : ℚ))) ∧
      (rq = ops.map (fun op => !(hdQ s.cfg.sw op)) → r.value s.pn.toNat = (2, 0))

/-- From the n-th `PUSH` on, window and result depend on the pattern and the received symbols alone, whatever the
window held before. -/
def Obligations.WindowForgetsThePast : Prop :=
  ∀ (s s' : State) (ops : List OpWord), HostInv s → HostInv s' → s.lc = .bound → s'.lc = .bound →
    s.cfg = s'.cfg → s.pn = s'.pn → s.refI = s'.refI → s.refQ = s'.refQ →
    s.input = pushInputs ops → s'.input = pushInputs ops → s.pn.toNat ≤ ops.length →
    ∃ t t', Host.Core.run Sys2Proof.core ops.length s = .next t ∧
      Host.Core.run Sys2Proof.core ops.length s' = .next t' ∧
      t.rxI = t'.rxI ∧ t.rxQ = t'.rxQ ∧ t.last = t'.last ∧ t.resp = t'.resp

/-- In class CC with a generator-built pattern the pair is (a - b, a + b). -/
def Obligations.GeneratorPatternScoring : Prop :=
  ∀ (s : State) (op : OpWord), HostInv s → s.lc = .bound → s.path = .generator → s.cfg.cls = .cc →
    ∃ ri yi yq t, s.refI = some ri ∧ exec (.push op) s = .next t ∧ t.rxI = some yi ∧ t.rxQ = some yq ∧
      t.resp = some { status := .ok
                      valI := BitVec.ofInt 32 (agreement ri yi - agreement ri yq)
                      valQ := BitVec.ofInt 32 (agreement ri yi + agreement ri yq) }

/-- The magnitude of the correlation: in class RR at most 1, in class CR each component at most 1, in class CC the
components together at most 2. -/
def Obligations.CorrelationIsBoundedPerClass : Prop :=
  ∀ (s t : State) (op : OpWord) (r : Response), HostInv s → s.lc = .bound → exec (.push op) s = .next t →
    t.resp = some r →
    (s.cfg.cls = .rr → |(r.value s.pn.toNat).1| ≤ 1 ∧ (r.value s.pn.toNat).2 = 0) ∧
    (s.cfg.cls = .cr → |(r.value s.pn.toNat).1| ≤ 1 ∧ |(r.value s.pn.toNat).2| ≤ 1) ∧
    (s.cfg.cls = .cc → |(r.value s.pn.toNat).1| + |(r.value s.pn.toNat).2| ≤ 2)

/-- Rule R91: a pseudo-instruction is a `PSEQ` or `PGEN` and then a `BIND`; where the first completes, the second leaves
`BOUND` with the same pattern, and where it raises, the second raises `E_STATE`. Except from `READY` the two commands
presented one by one do the same. The last clause, that from `READY` the `BIND` presented by itself binds the pattern
that is there, is the model's choice: it follows rules R36 and R171 for a command, where rule R91's sentence about an
expansion says `E_STATE` (notes/assumptions/11.md). -/
def Obligations.PseudoInstructionsOpenOrRaise : Prop :=
  ∀ (s : State) (i : Instr) (run : State → Host.Outcome State Fault Refusal), HostInv s →
    (∃ n burst, openSeq n burst = [i, .bind] ∧ i.wf = true ∧ run = execOpenSeq n burst) ∨
      (∃ sel, openGen sel = [i, .bind] ∧ run = execOpenGen sel) →
    ∃ t u, exec i s = .next t ∧ run s = .next u ∧
      ((t.resp = some { status := .ok, valI := 0, valQ := 0 } ∧ t.lc = .ready ∧
          u.resp = some { status := .ok, valI := 0, valQ := 0 } ∧ u.lc = .bound ∧
          u.path = t.path ∧ u.pn = t.pn ∧ u.refI = t.refI ∧ u.refQ = t.refQ) ∨
        (∃ c, t = raisedState s (causeBit c) c ∧ u = raisedState t 1 .state)) ∧
      (s.lc ≠ .ready → exec .bind t = .next u) ∧
      (s.lc = .ready → ∃ v, exec .bind t = .next v ∧ v.lc = .bound ∧
        v.path = s.path ∧ v.pn = s.pn ∧ v.refI = s.refI ∧ v.refQ = s.refQ)
end

