-- ==== Sys2Proof/Laws/State.lean ====
section
/-! SUPPORT. One lemma for each field and each named update of a state, all by unfolding the update once. -/

namespace Sys2Proof.Machine

section
variable (s : State) (i q : BitVec 32) (c : ErrCause) (t : Transaction) (k : Config) (r : Option Rail)

/-! ## `State.done` -/

@[simp] theorem State.done_cfg : (s.done i q).cfg = s.cfg := rfl
@[simp] theorem State.done_lc : (s.done i q).lc = s.lc := rfl
@[simp] theorem State.done_pn : (s.done i q).pn = s.pn := rfl
@[simp] theorem State.done_path : (s.done i q).path = s.path := rfl
@[simp] theorem State.done_refI : (s.done i q).refI = s.refI := rfl
@[simp] theorem State.done_refQ : (s.done i q).refQ = s.refQ := rfl
@[simp] theorem State.done_rxI : (s.done i q).rxI = s.rxI := rfl
@[simp] theorem State.done_rxQ : (s.done i q).rxQ = s.rxQ := rfl
@[simp] theorem State.done_last : (s.done i q).last = s.last := rfl
@[simp] theorem State.done_errlog : (s.done i q).errlog = s.errlog := rfl
@[simp] theorem State.done_sg : (s.done i q).sg = s.sg := rfl
@[simp] theorem State.done_input : (s.done i q).input = s.input := rfl
@[simp] theorem State.done_resp : (s.done i q).resp = some { status := .ok, valI := i, valQ := q } := rfl
@[simp] theorem State.done_uresult : (s.done i q).uresult = s.uresult := rfl

/-! ## `State.raise` -/

@[simp] theorem State.raise_cfg : (s.raise c).cfg = s.cfg := rfl
@[simp] theorem State.raise_lc : (s.raise c).lc = s.lc := rfl
@[simp] theorem State.raise_pn : (s.raise c).pn = s.pn := rfl
@[simp] theorem State.raise_path : (s.raise c).path = s.path := rfl
@[simp] theorem State.raise_refI : (s.raise c).refI = s.refI := rfl
@[simp] theorem State.raise_refQ : (s.raise c).refQ = s.refQ := rfl
@[simp] theorem State.raise_rxI : (s.raise c).rxI = s.rxI := rfl
@[simp] theorem State.raise_rxQ : (s.raise c).rxQ = s.rxQ := rfl
@[simp] theorem State.raise_last : (s.raise c).last = s.last := rfl
@[simp] theorem State.raise_errlog : (s.raise c).errlog = setErr s.errlog c := rfl
@[simp] theorem State.raise_sg : (s.raise c).sg = s.sg := rfl
@[simp] theorem State.raise_input : (s.raise c).input = s.input := rfl
@[simp] theorem State.raise_resp : (s.raise c).resp = some { status := .error c, valI := 0, valQ := 0 } := rfl
@[simp] theorem State.raise_uresult : (s.raise c).uresult = s.uresult := rfl

/-! ## `State.present` -/

@[simp] theorem State.present_cfg : (s.present t).cfg = s.cfg := rfl
@[simp] theorem State.present_lc : (s.present t).lc = s.lc := rfl
@[simp] theorem State.present_pn : (s.present t).pn = s.pn := rfl
@[simp] theorem State.present_path : (s.present t).path = s.path := rfl
@[simp] theorem State.present_refI : (s.present t).refI = s.refI := rfl
@[simp] theorem State.present_refQ : (s.present t).refQ = s.refQ := rfl
@[simp] theorem State.present_rxI : (s.present t).rxI = s.rxI := rfl
@[simp] theorem State.present_rxQ : (s.present t).rxQ = s.rxQ := rfl
@[simp] theorem State.present_last : (s.present t).last = s.last := rfl
@[simp] theorem State.present_errlog : (s.present t).errlog = s.errlog := rfl
@[simp] theorem State.present_sg : (s.present t).sg = s.sg := rfl
@[simp] theorem State.present_input : (s.present t).input = .transaction t :: s.input := rfl
@[simp] theorem State.present_resp : (s.present t).resp = s.resp := rfl
@[simp] theorem State.present_uresult : (s.present t).uresult = s.uresult := rfl

/-! ## `State.resetWith` -/

@[simp] theorem State.resetWith_cfg : (State.resetWith k).cfg = k := rfl
@[simp] theorem State.resetWith_lc : (State.resetWith k).lc = .empty := rfl
@[simp] theorem State.resetWith_pn : (State.resetWith k).pn = 0 := rfl
@[simp] theorem State.resetWith_path : (State.resetWith k).path = .explicit := rfl
@[simp] theorem State.resetWith_refI : (State.resetWith k).refI = none := rfl
@[simp] theorem State.resetWith_refQ : (State.resetWith k).refQ = none := rfl
@[simp] theorem State.resetWith_rxI : (State.resetWith k).rxI = none := rfl
@[simp] theorem State.resetWith_rxQ : (State.resetWith k).rxQ = none := rfl
@[simp] theorem State.resetWith_last : (State.resetWith k).last = none := rfl
@[simp] theorem State.resetWith_errlog : (State.resetWith k).errlog = 0 := rfl
@[simp] theorem State.resetWith_sg : (State.resetWith k).sg = none := rfl
@[simp] theorem State.resetWith_input : (State.resetWith k).input = [] := rfl
@[simp] theorem State.resetWith_resp : (State.resetWith k).resp = none := rfl
@[simp] theorem State.resetWith_uresult : (State.resetWith k).uresult = none := rfl

/-! ## `State.hreset` -/

@[simp] theorem State.hreset_cfg : s.hreset.cfg = s.cfg := rfl
@[simp] theorem State.hreset_lc : s.hreset.lc = .empty := rfl
@[simp] theorem State.hreset_pn : s.hreset.pn = 0 := rfl
@[simp] theorem State.hreset_path : s.hreset.path = .explicit := rfl
@[simp] theorem State.hreset_refI : s.hreset.refI = none := rfl
@[simp] theorem State.hreset_refQ : s.hreset.refQ = none := rfl
@[simp] theorem State.hreset_rxI : s.hreset.rxI = none := rfl
@[simp] theorem State.hreset_rxQ : s.hreset.rxQ = none := rfl
@[simp] theorem State.hreset_last : s.hreset.last = none := rfl
@[simp] theorem State.hreset_errlog : s.hreset.errlog = 0 := rfl
@[simp] theorem State.hreset_sg : s.hreset.sg = none := rfl
@[simp] theorem State.hreset_input : s.hreset.input = s.input := rfl
@[simp] theorem State.hreset_resp : s.hreset.resp = none := rfl
@[simp] theorem State.hreset_uresult : s.hreset.uresult = none := rfl

/-! ## `State.setRail` and `State.rail` -/

@[simp] theorem State.setRail_refI_cfg : (s.setRail .refI r).cfg = s.cfg := rfl
@[simp] theorem State.setRail_refI_lc : (s.setRail .refI r).lc = s.lc := rfl
@[simp] theorem State.setRail_refI_pn : (s.setRail .refI r).pn = s.pn := rfl
@[simp] theorem State.setRail_refI_path : (s.setRail .refI r).path = s.path := rfl
@[simp] theorem State.setRail_refI_refI : (s.setRail .refI r).refI = r := rfl
@[simp] theorem State.setRail_refI_refQ : (s.setRail .refI r).refQ = s.refQ := rfl
@[simp] theorem State.setRail_refI_rxI : (s.setRail .refI r).rxI = s.rxI := rfl
@[simp] theorem State.setRail_refI_rxQ : (s.setRail .refI r).rxQ = s.rxQ := rfl
@[simp] theorem State.setRail_refI_last : (s.setRail .refI r).last = s.last := rfl
@[simp] theorem State.setRail_refI_errlog : (s.setRail .refI r).errlog = s.errlog := rfl
@[simp] theorem State.setRail_refI_sg : (s.setRail .refI r).sg = s.sg := rfl
@[simp] theorem State.setRail_refI_input : (s.setRail .refI r).input = s.input := rfl
@[simp] theorem State.setRail_refI_resp : (s.setRail .refI r).resp = s.resp := rfl
@[simp] theorem State.setRail_refI_uresult : (s.setRail .refI r).uresult = s.uresult := rfl
@[simp] theorem State.setRail_refQ_cfg : (s.setRail .refQ r).cfg = s.cfg := rfl
@[simp] theorem State.setRail_refQ_lc : (s.setRail .refQ r).lc = s.lc := rfl
@[simp] theorem State.setRail_refQ_pn : (s.setRail .refQ r).pn = s.pn := rfl
@[simp] theorem State.setRail_refQ_path : (s.setRail .refQ r).path = s.path := rfl
@[simp] theorem State.setRail_refQ_refI : (s.setRail .refQ r).refI = s.refI := rfl
@[simp] theorem State.setRail_refQ_refQ : (s.setRail .refQ r).refQ = r := rfl
@[simp] theorem State.setRail_refQ_rxI : (s.setRail .refQ r).rxI = s.rxI := rfl
@[simp] theorem State.setRail_refQ_rxQ : (s.setRail .refQ r).rxQ = s.rxQ := rfl
@[simp] theorem State.setRail_refQ_last : (s.setRail .refQ r).last = s.last := rfl
@[simp] theorem State.setRail_refQ_errlog : (s.setRail .refQ r).errlog = s.errlog := rfl
@[simp] theorem State.setRail_refQ_sg : (s.setRail .refQ r).sg = s.sg := rfl
@[simp] theorem State.setRail_refQ_input : (s.setRail .refQ r).input = s.input := rfl
@[simp] theorem State.setRail_refQ_resp : (s.setRail .refQ r).resp = s.resp := rfl
@[simp] theorem State.setRail_refQ_uresult : (s.setRail .refQ r).uresult = s.uresult := rfl
@[simp] theorem State.setRail_rxI_cfg : (s.setRail .rxI r).cfg = s.cfg := rfl
@[simp] theorem State.setRail_rxI_lc : (s.setRail .rxI r).lc = s.lc := rfl
@[simp] theorem State.setRail_rxI_pn : (s.setRail .rxI r).pn = s.pn := rfl
@[simp] theorem State.setRail_rxI_path : (s.setRail .rxI r).path = s.path := rfl
@[simp] theorem State.setRail_rxI_refI : (s.setRail .rxI r).refI = s.refI := rfl
@[simp] theorem State.setRail_rxI_refQ : (s.setRail .rxI r).refQ = s.refQ := rfl
@[simp] theorem State.setRail_rxI_rxI : (s.setRail .rxI r).rxI = r := rfl
@[simp] theorem State.setRail_rxI_rxQ : (s.setRail .rxI r).rxQ = s.rxQ := rfl
@[simp] theorem State.setRail_rxI_last : (s.setRail .rxI r).last = s.last := rfl
@[simp] theorem State.setRail_rxI_errlog : (s.setRail .rxI r).errlog = s.errlog := rfl
@[simp] theorem State.setRail_rxI_sg : (s.setRail .rxI r).sg = s.sg := rfl
@[simp] theorem State.setRail_rxI_input : (s.setRail .rxI r).input = s.input := rfl
@[simp] theorem State.setRail_rxI_resp : (s.setRail .rxI r).resp = s.resp := rfl
@[simp] theorem State.setRail_rxI_uresult : (s.setRail .rxI r).uresult = s.uresult := rfl
@[simp] theorem State.setRail_rxQ_cfg : (s.setRail .rxQ r).cfg = s.cfg := rfl
@[simp] theorem State.setRail_rxQ_lc : (s.setRail .rxQ r).lc = s.lc := rfl
@[simp] theorem State.setRail_rxQ_pn : (s.setRail .rxQ r).pn = s.pn := rfl
@[simp] theorem State.setRail_rxQ_path : (s.setRail .rxQ r).path = s.path := rfl
@[simp] theorem State.setRail_rxQ_refI : (s.setRail .rxQ r).refI = s.refI := rfl
@[simp] theorem State.setRail_rxQ_refQ : (s.setRail .rxQ r).refQ = s.refQ := rfl
@[simp] theorem State.setRail_rxQ_rxI : (s.setRail .rxQ r).rxI = s.rxI := rfl
@[simp] theorem State.setRail_rxQ_rxQ : (s.setRail .rxQ r).rxQ = r := rfl
@[simp] theorem State.setRail_rxQ_last : (s.setRail .rxQ r).last = s.last := rfl
@[simp] theorem State.setRail_rxQ_errlog : (s.setRail .rxQ r).errlog = s.errlog := rfl
@[simp] theorem State.setRail_rxQ_sg : (s.setRail .rxQ r).sg = s.sg := rfl
@[simp] theorem State.setRail_rxQ_input : (s.setRail .rxQ r).input = s.input := rfl
@[simp] theorem State.setRail_rxQ_resp : (s.setRail .rxQ r).resp = s.resp := rfl
@[simp] theorem State.setRail_rxQ_uresult : (s.setRail .rxQ r).uresult = s.uresult := rfl
@[simp] theorem State.rail_refI : s.rail .refI = s.refI := rfl
@[simp] theorem State.rail_refQ : s.rail .refQ = s.refQ := rfl
@[simp] theorem State.rail_rxI : s.rail .rxI = s.rxI := rfl
@[simp] theorem State.rail_rxQ : s.rail .rxQ = s.rxQ := rfl

end

@[simp] theorem State.rail_setRail_same (s : State) (n : RailName) (r : Option Rail) :
    (s.setRail n r).rail n = r := by
  cases n <;> rfl

theorem State.rail_setRail_of_ne (s : State) (n k : RailName) (r : Option Rail) (h : k ≠ n) :
    (s.setRail n r).rail k = s.rail k := by
  cases n <;> cases k <;> first | rfl | exact absurd rfl h

end Sys2Proof.Machine
end

