-- ==== Sys2Proof/Laws/Ops.lean ====
section
/-! SUPPORT. For each shared operation, one lemma that says once everything it can do. -/

namespace Sys2Proof.Machine

/-! ## Sequencing -/

theorem except_bind_eq_ok {α β : Type} {x : Except Refusal α} {f : α → Except Refusal β} {b : β} :
    (x >>= f) = .ok b ↔ ∃ a, x = .ok a ∧ f a = .ok b := by
  cases x <;> simp [bind, Except.bind]

theorem except_map_eq_ok {α β : Type} {f : α → β} {x : Except Refusal α} {b : β} :
    (f <$> x) = .ok b ↔ ∃ a, x = .ok a ∧ f a = b := by
  cases x <;> simp [Functor.map, Except.map]

theorem toOutcome_eq_next {x : Except Refusal State} {t : State} :
    toOutcome x = .next t ↔ x = .ok t := by
  cases x <;> simp [toOutcome]

theorem toOutcome_eq_refused {x : Except Refusal State} {r : Refusal} :
    toOutcome x = .refused r ↔ x = .error r := by
  cases x <;> simp [toOutcome]

theorem inLifecycle_of_eq {l : Lifecycle} {s : State} {body : Except Refusal State} (h : s.lc = l) :
    inLifecycle l s body = toOutcome body := by
  simp [inLifecycle, h]

theorem inLifecycle_of_ne {l : Lifecycle} {s : State} {body : Except Refusal State} (h : s.lc ≠ l) :
    inLifecycle l s body = .next (s.raise .state) := by
  simp [inLifecycle, h]

theorem inLifecycle_eq_next {l : Lifecycle} {s t : State} {body : Except Refusal State} :
    inLifecycle l s body = .next t ↔
      (s.lc = l ∧ body = .ok t) ∨ (s.lc ≠ l ∧ t = s.raise .state) := by
  by_cases h : s.lc = l
  · simp [inLifecycle_of_eq h, toOutcome_eq_next, h]
  · simp [inLifecycle_of_ne h, h, eq_comm]

theorem ifExists_eq_ok {present : Bool} {r p : Option Rail} {op : Except Refusal (Option Rail)} :
    ifExists present r op = .ok p ↔ if present = true then op = .ok p else p = r := by
  cases present <;> simp [ifExists, eq_comm]

theorem onRail_eq_ok {s t : State} {n : RailName} {body : Except Refusal State} :
    onRail s n body = .ok t ↔ railExists s.cfg.cls n = true ∧ body = .ok t := by
  unfold onRail
  split <;> simp_all

theorem onSg_eq_ok {s t : State} {body : SgState → State} :
    onSg s body = .ok t ↔ ∃ g, s.sg = some g ∧ body g = t := by
  unfold onSg
  split <;> simp_all

/-! ## The bit buffer -/

theorem bsbCreate_eq_ok {nmax len : Nat} {r : Rail} :
    bsbCreate nmax len = .ok r ↔ (1 ≤ len ∧ len ≤ nmax) ∧ r = zeros len := by
  unfold bsbCreate
  split <;> simp_all [zeros, eq_comm]

theorem bsbPush_eq_ok {p : Option Rail} {b : Bool} {r : Rail} :
    bsbPush p b = .ok r ↔ ∃ x, p = some x ∧ r = railPush x b := by
  cases p <;> simp [bsbPush, eq_comm]

theorem bsbCorr_eq_ok {p q : Option Rail} {z : Int} :
    bsbCorr p q = .ok z ↔ ∃ a b, p = some a ∧ q = some b ∧ a.length = b.length ∧ z = corr a b := by
  cases p with
  | none => simp [bsbCorr]
  | some a =>
    cases q with
    | none => simp [bsbCorr]
    | some b => by_cases h : a.length = b.length <;> simp [bsbCorr, h, eq_comm]

theorem bsbClear_eq_ok {p : Option Rail} {r : Rail} :
    bsbClear p = .ok r ↔ ∃ x, p = some x ∧ r = zeros x.length := by
  cases p <;> simp [bsbClear, zeros, eq_comm]

theorem bsbDestroy_eq_ok {p q : Option Rail} :
    bsbDestroy p = .ok q ↔ (∃ x, p = some x) ∧ q = none := by
  cases p <;> simp [bsbDestroy, eq_comm]

theorem writeBits_eq_of_length_eq : ∀ (r : Rail) (bits : List Bool), r.length = bits.length →
    writeBits r bits = bits
  | [], [], _ => rfl
  | _ :: r, b :: bits, h => by
    simp only [writeBits, List.length_cons, Nat.add_right_cancel_iff] at h ⊢
    rw [writeBits_eq_of_length_eq r bits h]

theorem railOf_eq_ok {nmax : Nat} {bits r : List Bool} :
    railOf nmax bits = .ok r ↔ (1 ≤ bits.length ∧ bits.length ≤ nmax) ∧ r = bits := by
  unfold railOf
  rw [except_bind_eq_ok]
  constructor
  · rintro ⟨z, hz, hr⟩
    obtain ⟨hlen, rfl⟩ := bsbCreate_eq_ok.mp hz
    rw [writeBits_eq_of_length_eq _ _ (by simp [zeros])] at hr
    exact ⟨hlen, by simpa [eq_comm, pure, Except.pure] using hr⟩
  · rintro ⟨hlen, rfl⟩
    refine ⟨zeros r.length, bsbCreate_eq_ok.mpr ⟨hlen, rfl⟩, ?_⟩
    rw [writeBits_eq_of_length_eq _ _ (by simp [zeros])]
    rfl

@[simp] theorem railPush_length (r : Rail) (b : Bool) : (railPush r b).length = r.length := by
  cases r <;> simp [railPush]

theorem railPush_eq_shifted {r : Rail} (h : r ≠ []) (b : Bool) : railPush r b = shifted r b := by
  cases r with
  | nil => exact absurd rfl h
  | cons a r => rfl

@[simp] theorem zeros_length (n : Nat) : (zeros n).length = n := by simp [zeros]

/-! ## The selector and the sequence generator -/

theorem selLookup_eq_some {sel : BitVec 4} {m : Nat} :
    selLookup sel = some m ↔ sel.toNat ≤ 10 ∧ m = sel.toNat + 2 := by
  unfold selLookup
  split <;> simp_all [eq_comm]

theorem sgCreate_eq_ok {c : Config} {p : Option SgState} {m : Nat} {g : SgState} :
    sgCreate c p m = .ok g ↔
      p = none ∧ (2 ≤ m ∧ m ≤ 12) ∧ g = { m := BitVec.ofNat 4 m, v := sgA c m } := by
  cases p with
  | some g' => simp [sgCreate]
  | none => by_cases h : 2 ≤ m ∧ m ≤ 12 <;> simp [sgCreate, h, eq_comm]

@[simp] theorem sgReset_m (c : Config) (g : SgState) : (sgReset c g).m = g.m := rfl
@[simp] theorem sgReset_v (c : Config) (g : SgState) : (sgReset c g).v = sgA c g.m.toNat := rfl
@[simp] theorem sgNext_m (c : Config) (g : SgState) : (sgNext c g).2.m = g.m := by
  simp only [sgNext]
@[simp] theorem sgNext_v (c : Config) (g : SgState) : (sgNext c g).2.v = sgStep c g.m.toNat g.v := by
  simp only [sgNext]
@[simp] theorem sgNext_bit (c : Config) (g : SgState) : (sgNext c g).1 = sgFeedback c g.m.toNat g.v := by
  simp only [sgNext]

@[simp] theorem sgDrain_m (c : Config) (n : Nat) (g : SgState) : (sgDrain c n g).2.m = g.m := by
  induction n generalizing g with
  | zero => rfl
  | succ n ih => simp [sgDrain, ih]

/-- Draining a generator that stands k steps after a reset gives the bits `b_k, b_(k+1), …` and leaves it n steps
further. -/
theorem sgDrain_of_sgAfter (c : Config) (n k : Nat) (g : SgState) (h : g.v = sgAfter c g.m.toNat k) :
    (sgDrain c n g).1 = (List.range' k n).map (sgBit c g.m.toNat) ∧
      (sgDrain c n g).2.v = sgAfter c g.m.toNat (k + n) := by
  induction n generalizing k g with
  | zero => simpa [sgDrain] using h
  | succ n ih =>
    have := ih (k + 1) (sgNext c g).2 (by simp [sgAfter, h])
    simp only [sgNext_m] at this
    simp only [sgDrain, List.range'_succ, List.map_cons, this, sgNext_bit, sgBit, h]
    exact ⟨trivial, by rw [Nat.add_right_comm]; rfl⟩

theorem sgDrain_sgReset (c : Config) (n : Nat) (g : SgState) :
    (sgDrain c n (sgReset c g)).1 = sgBits c g.m.toNat n := by
  rw [(sgDrain_of_sgAfter c n 0 (sgReset c g) rfl).1, sgBits, List.range_eq_range']
  rfl

theorem sgMask_toNat {m : Nat} (h : m ≤ 12) : (sgMask m).toNat = 2 ^ m - 1 := by
  have : 2 ^ m ≤ 2 ^ 12 := Nat.pow_le_pow_right (by omega) h
  simp only [sgMask, BitVec.toNat_ofNat]
  omega

/-- The register keeps m bits. -/
theorem sgStep_lt {c : Config} {m : Nat} (h : m ≤ 12) (v : BitVec 12) : (sgStep c m v).toNat < 2 ^ m := by
  have hle : (sgStep c m v).toNat ≤ (sgMask m).toNat := by
    simp only [sgStep, BitVec.toNat_and]
    exact Nat.and_le_right
  rw [sgMask_toNat h] at hle
  have : 0 < 2 ^ m := Nat.two_pow_pos m
  omega

/-! ## The accumulator -/

theorem accumulate_eq_ok {cls : CorrClass} {refI refQ rxI rxQ : Option Rail} {i q : Int} :
    accumulate cls refI refQ rxI rxQ = .ok (i, q) ↔
      match cls with
      | .rr => bsbCorr refI rxI = .ok i ∧ q = 0
      | .cr => bsbCorr refI rxI = .ok i ∧ bsbCorr refI rxQ = .ok q
      | .cc => ∃ a b c d, bsbCorr refI rxI = .ok a ∧ bsbCorr refI rxQ = .ok b ∧
          bsbCorr refQ rxI = .ok c ∧ bsbCorr refQ rxQ = .ok d ∧ i = a - d ∧ q = b + c := by
  cases cls <;> simp only [accumulate, except_bind_eq_ok, pure, Except.pure, Except.ok.injEq, Prod.mk.injEq]
  · exact ⟨fun ⟨a, ha, hi, hq⟩ => ⟨hi ▸ ha, hq.symm⟩, fun ⟨h, hq⟩ => ⟨i, h, rfl, hq.symm⟩⟩
  · exact ⟨fun ⟨a, ha, b, hb, hi, hq⟩ => ⟨hi ▸ ha, hq ▸ hb⟩, fun ⟨h, h'⟩ => ⟨i, h, q, h', rfl, rfl⟩⟩
  · exact ⟨fun ⟨a, ha, b, hb, c, hc, d, hd, hi, hq⟩ => ⟨a, b, c, d, ha, hb, hc, hd, hi.symm, hq.symm⟩,
      fun ⟨a, b, c, d, ha, hb, hc, hd, hi, hq⟩ => ⟨a, ha, b, hb, c, hc, d, hd, hi.symm, hq.symm⟩⟩

/-! ## The ports -/

/-- What a step is, by the next input. -/
theorem step_of_input_nil {s : State} (h : s.input = []) : step s = .next s := by
  simp [step, fetch, h]

theorem step_of_hreset {s : State} {rest : List Input} (h : s.input = .hreset :: rest) :
    step s = .next { State.resetWith s.cfg with input := rest } := by
  simp [step, fetch, h, State.hreset]

end Sys2Proof.Machine
end

