-- ==== Sys2Proof/Laws/Meanings.lean ====
section
/-! SUPPORT. For each instruction, one lemma that says once everything it can do when it answers a next state; for
`PUSH` and `RESET` the converse too; and the same for a step. -/

namespace Sys2Proof.Machine

theorem except_pure_eq_ok {s t : State} : (pure s : Except Refusal State) = .ok t ↔ t = s := by
  simp [pure, Except.pure, eq_comm]

@[simp] theorem sgBits_length (c : Config) (m n : Nat) : (sgBits c m n).length = n := by simp [sgBits]

theorem rail_ne_none {r : Option Rail} : r ≠ none ↔ ∃ x, r = some x := by cases r <;> simp

/-! ## Pattern construction -/

theorem pseq_next {n : BitVec 24} {burst : List OpWord} {s t : State} (h : exec (.pseq n burst) s = .next t) :
    burst.length = n.toNat ∧
    ((s.lc ≠ .empty ∧ t = s.raise .state) ∨
     (s.lc = .empty ∧ n.toNat = 0 ∧ t = s.raise .len0) ∨
     (s.lc = .empty ∧ s.cfg.nmax < n.toNat ∧ t = s.raise .lenMax) ∨
     (s.lc = .empty ∧ 1 ≤ n.toNat ∧ n.toNat ≤ s.cfg.nmax ∧ t = { s with
        refI := some (burst.map (hdI s.cfg.sw))
        refQ := if patternComplex s.cfg.cls then some (burst.map (hdQ s.cfg.sw)) else s.refQ
        pn := n, path := .explicit, lc := .ready }.done 0 0)) := by
  simp only [exec, execPseq] at h
  split at h; · cases h
  rename_i hlen
  refine ⟨by simpa using hlen, ?_⟩
  split at h
  · cases h; simp_all
  split at h
  · cases h; simp_all
  split at h
  · cases h; simp_all
  rw [toOutcome_eq_next] at h
  simp only [buildExplicit, except_bind_eq_ok, railOf_eq_ok, ifExists_eq_ok, except_map_eq_ok,
    except_pure_eq_ok] at h
  obtain ⟨_, ⟨_, rfl⟩, q, hq, rfl⟩ := h
  obtain rfl : q = if patternComplex s.cfg.cls then some (burst.map (hdQ s.cfg.sw)) else s.refQ := by
    split at hq
    · obtain ⟨_, ⟨_, rfl⟩, rfl⟩ := hq; simp [*]
    · simp [*]
  exact .inr (.inr (.inr ⟨by simp_all, by omega, by omega, rfl⟩))

theorem pgen_next {sel : BitVec 4} {s t : State} (h : exec (.pgen sel) s = .next t) :
    (s.lc ≠ .empty ∧ t = s.raise .state) ∨
    (s.lc = .empty ∧ 10 < sel.toNat ∧ t = s.raise .sel) ∨
    (s.lc = .empty ∧ sel.toNat ≤ 10 ∧ s.sg = none ∧ 2 ^ (sel.toNat + 2) - 1 ≤ s.cfg.nmax ∧ t = { s with
        refI := some (sgBits s.cfg (sel.toNat + 2) (2 ^ (sel.toNat + 2) - 1))
        refQ := if patternComplex s.cfg.cls then
          some (sgBits s.cfg (sel.toNat + 2) (2 ^ (sel.toNat + 2) - 1)) else s.refQ
        pn := BitVec.ofNat 24 (2 ^ (sel.toNat + 2) - 1), path := .generator, lc := .ready }.done 0 0) := by
  simp only [exec, execPgen] at h
  split at h
  · cases h; simp_all
  split at h
  · rename_i hs; cases h; simp [selLookup] at hs; simp_all
  rename_i m hm
  obtain ⟨hsel, rfl⟩ := selLookup_eq_some.mp hm
  rw [toOutcome_eq_next] at h
  simp only [buildFromGenerator, except_bind_eq_ok, sgCreate_eq_ok, railOf_eq_ok, ifExists_eq_ok,
    except_map_eq_ok, except_pure_eq_ok] at h
  obtain ⟨_, ⟨hsg, _, rfl⟩, _, ⟨⟨_, hn⟩, rfl⟩, q, hq, rfl⟩ := h
  have hm : (BitVec.ofNat 4 (sel.toNat + 2)).toNat = sel.toNat + 2 := by simp; omega
  simp only [sgDrain_sgReset, sgLen, hm, sgBits_length, sgDrain_m, sgReset_m] at hq hn ⊢
  obtain rfl : q = if patternComplex s.cfg.cls then
      some (sgBits s.cfg (sel.toNat + 2) (2 ^ (sel.toNat + 2) - 1)) else s.refQ := by
    split at hq
    · obtain ⟨_, ⟨_, rfl⟩, rfl⟩ := hq; simp [*]
    · simp [*]
  exact .inr (.inr ⟨by simp_all, hsel, hsg, hn, by rw [← hsg]⟩)

theorem pdestroy_next {s t : State} (h : exec .pdestroy s = .next t) :
    (s.lc ≠ .ready ∧ t = s.raise .state) ∨
    (s.lc = .ready ∧ s.refI ≠ none ∧ (patternComplex s.cfg.cls → s.refQ ≠ none) ∧ t = { s with
      refI := none, refQ := if patternComplex s.cfg.cls then none else s.refQ
      pn := 0, path := .explicit, lc := .empty }.done 0 0) := by
  simp only [exec, execPdestroy, inLifecycle_eq_next, except_bind_eq_ok, bsbDestroy_eq_ok, ifExists_eq_ok,
    except_pure_eq_ok] at h
  rcases h with ⟨hl, _, ⟨⟨x, hx⟩, rfl⟩, q, hq, rfl⟩ | h
  · right
    cases hc : patternComplex s.cfg.cls <;> simp_all
    obtain ⟨⟨y, hy⟩, rfl⟩ := hq
    simp [hy]
  · exact .inl h

/-! ## The correlator -/

theorem bind_next {s t : State} (h : exec .bind s = .next t) :
    (s.lc ≠ .ready ∧ t = s.raise .state) ∨
    (s.lc = .ready ∧ 1 ≤ s.pn.toNat ∧ s.pn.toNat ≤ s.cfg.nmax ∧ t = { s with
      rxI := some (zeros s.pn.toNat)
      rxQ := if symbolComplex s.cfg.cls then some (zeros s.pn.toNat) else s.rxQ
      last := none, lc := .bound }.done 0 0) := by
  simp only [exec, execBind, inLifecycle_eq_next, except_bind_eq_ok, bsbCreate_eq_ok, ifExists_eq_ok,
    except_pure_eq_ok, except_map_eq_ok] at h
  rcases h with ⟨hl, _, ⟨_, rfl⟩, q, hq, rfl⟩ | h
  · right; cases hc : symbolComplex s.cfg.cls <;> simp_all
  · exact .inl h

theorem reset_next {s t : State} (h : exec .reset s = .next t) :
    (s.lc ≠ .bound ∧ t = s.raise .state) ∨
    (∃ xi, s.lc = .bound ∧ s.rxI = some xi ∧ (symbolComplex s.cfg.cls → s.rxQ ≠ none) ∧ t = { s with
      rxI := some (zeros xi.length)
      rxQ := if symbolComplex s.cfg.cls then s.rxQ.map (fun x : Rail => zeros x.length) else s.rxQ
      last := none }.done 0 0) := by
  simp only [exec, execReset, inLifecycle_eq_next, except_bind_eq_ok, bsbClear_eq_ok, ifExists_eq_ok,
    except_pure_eq_ok, except_map_eq_ok] at h
  rcases h with ⟨hl, _, ⟨x, hx, rfl⟩, q, hq, rfl⟩ | h
  · right
    refine ⟨x, hl, hx, ?_⟩
    cases hc : symbolComplex s.cfg.cls <;> simp_all
    obtain ⟨y, hy, rfl⟩ := hq
    simp [hy]
  · exact .inl h

theorem reset_of_bound {s : State} {xi : Rail} {q : Option Rail} (hl : s.lc = .bound) (hx : s.rxI = some xi)
    (hq : ifExists (symbolComplex s.cfg.cls) s.rxQ (some <$> bsbClear s.rxQ) = .ok q) :
    exec .reset s = .next ({ s with rxI := some (zeros xi.length), rxQ := q, last := none }.done 0 0) := by
  simp only [exec, execReset, inLifecycle_of_eq hl, toOutcome_eq_next, except_bind_eq_ok]
  exact ⟨_, bsbClear_eq_ok.mpr ⟨xi, hx, rfl⟩, _, hq, rfl⟩

theorem push_next {op : OpWord} {s t : State} (h : exec (.push op) s = .next t) :
    (s.lc ≠ .bound ∧ t = s.raise .state) ∨
    (∃ xi rxQ i q, s.lc = .bound ∧ s.rxI = some xi ∧ (symbolComplex s.cfg.cls → s.rxQ ≠ none) ∧
      rxQ = (if symbolComplex s.cfg.cls then
        s.rxQ.map (fun x : Rail => railPush x (hdQ s.cfg.sw op)) else s.rxQ) ∧
      accumulate s.cfg.cls s.refI s.refQ (some (railPush xi (hdI s.cfg.sw op))) rxQ = .ok (i, q) ∧
      t = { s with rxI := some (railPush xi (hdI s.cfg.sw op)), rxQ := rxQ
                   last := some { i := BitVec.ofInt 26 i, q := BitVec.ofInt 26 q } }.done
        (BitVec.ofInt 32 i) (BitVec.ofInt 32 q)) := by
  simp only [exec, execPush, inLifecycle_eq_next, except_bind_eq_ok, bsbPush_eq_ok, ifExists_eq_ok,
    except_pure_eq_ok, except_map_eq_ok] at h
  rcases h with ⟨hl, _, ⟨x, hx, rfl⟩, rxQ, hq, ⟨i, q⟩, hacc, rfl⟩ | h
  · refine .inr ⟨x, rxQ, i, q, hl, hx, ?_, ?_, hacc, rfl⟩
    · intro hc; simp [hc] at hq; obtain ⟨y, hy, _⟩ := hq; simp [hy]
    · cases hc : symbolComplex s.cfg.cls <;> simp_all
      obtain ⟨y, hy, rfl⟩ := hq
      simp [hy]
  · exact .inl h

theorem push_of_bound {s : State} {op : OpWord} {xi : Rail} {rxQ : Option Rail} {i q : Int}
    (hl : s.lc = .bound) (hx : s.rxI = some xi)
    (hq : ifExists (symbolComplex s.cfg.cls) s.rxQ (some <$> bsbPush s.rxQ (hdQ s.cfg.sw op)) = .ok rxQ)
    (hacc : accumulate s.cfg.cls s.refI s.refQ (some (railPush xi (hdI s.cfg.sw op))) rxQ = .ok (i, q)) :
    exec (.push op) s = .next ({ s with
      rxI := some (railPush xi (hdI s.cfg.sw op)), rxQ := rxQ
      last := some { i := BitVec.ofInt 26 i, q := BitVec.ofInt 26 q } }.done
        (BitVec.ofInt 32 i) (BitVec.ofInt 32 q)) := by
  simp only [exec, execPush, inLifecycle_of_eq hl, toOutcome_eq_next, except_bind_eq_ok]
  exact ⟨_, bsbPush_eq_ok.mpr ⟨xi, hx, rfl⟩, _, hq, (i, q), hacc, rfl⟩

theorem destroy_next {s t : State} (h : exec .destroy s = .next t) :
    (s.lc ≠ .bound ∧ t = s.raise .state) ∨
    (s.lc = .bound ∧ s.rxI ≠ none ∧ (symbolComplex s.cfg.cls → s.rxQ ≠ none) ∧
      ((s.path = .explicit ∧ t = { s with
          rxI := none, rxQ := if symbolComplex s.cfg.cls then none else s.rxQ
          last := none, lc := .ready }.done 0 0) ∨
       (s.path = .generator ∧ s.refI ≠ none ∧ (patternComplex s.cfg.cls → s.refQ ≠ none) ∧ t = { s with
          rxI := none, rxQ := if symbolComplex s.cfg.cls then none else s.rxQ
          refI := none, refQ := if patternComplex s.cfg.cls then none else s.refQ
          last := none, pn := 0, path := .explicit, lc := .empty }.done 0 0))) := by
  have gone : ∀ {b : Bool} {r p : Option Rail},
      (if b = true then (∃ x, r = some x) ∧ p = none else p = r) →
      (b = true → r ≠ none) ∧ p = if b = true then none else r := by
    intro b r p hp
    cases b <;> simp_all
    obtain ⟨⟨x, rfl⟩, _⟩ := hp
    simp
  simp only [exec, execDestroy, inLifecycle_eq_next, except_bind_eq_ok, bsbDestroy_eq_ok, ifExists_eq_ok] at h
  rcases h with ⟨hl, _, ⟨⟨x, hx⟩, rfl⟩, rxQ, hq, h⟩ | h
  · obtain ⟨hlive, rfl⟩ := gone hq
    refine .inr ⟨hl, by simp [hx], hlive, ?_⟩
    split at h
    · rename_i hp
      simp only [except_bind_eq_ok, bsbDestroy_eq_ok, ifExists_eq_ok, except_pure_eq_ok] at h
      obtain ⟨_, ⟨⟨y, hy⟩, rfl⟩, refQ, hq', rfl⟩ := h
      obtain ⟨hlive', rfl⟩ := gone hq'
      exact .inr ⟨hp, by simp [hy], hlive', rfl⟩
    · rename_i hp
      exact .inl ⟨hp, except_pure_eq_ok.mp h⟩
  · exact .inl h

/-! ## Diagnostics -/

theorem info_next {s t : State} (h : exec .info s = .next t) : t = s.done (infoI s) (infoQ s) := by
  simp only [exec, execInfo] at h
  cases h
  rfl

theorem rdlast_next {s t : State} (h : exec .rdlast s = .next t) :
    ((s.lc ≠ .bound ∨ s.last = none) ∧ t = s.raise .state) ∨
    (∃ v, s.lc = .bound ∧ s.last = some v ∧ t = s.done (v.i.signExtend 32) (v.q.signExtend 32)) := by
  simp only [exec, execRdlast, inLifecycle_eq_next] at h
  rcases h with ⟨hl, h⟩ | h
  · split at h <;> cases h <;> simp_all
  · exact .inl ⟨.inl h.1, h.2⟩

/-! ## The bit buffer -/

theorem bsbCreate_next {n : RailName} {len : Nat} {s t : State} (h : exec (.bsbCreate n len) s = .next t) :
    railExists s.cfg.cls n = true ∧ (1 ≤ len ∧ len ≤ s.cfg.nmax) ∧
      t = { s.setRail n (some (zeros len)) with uresult := none } := by
  simp only [exec, execBsbCreate, toOutcome_eq_next, onRail_eq_ok, except_bind_eq_ok, bsbCreate_eq_ok,
    except_pure_eq_ok] at h
  obtain ⟨he, _, ⟨hlen, rfl⟩, rfl⟩ := h
  exact ⟨he, hlen, rfl⟩

theorem bsbPush_next {n : RailName} {b : Bool} {s t : State} (h : exec (.bsbPush n b) s = .next t) :
    railExists s.cfg.cls n = true ∧ ∃ x, s.rail n = some x ∧
      t = { s.setRail n (some (railPush x b)) with uresult := none } := by
  simp only [exec, execBsbPush, toOutcome_eq_next, onRail_eq_ok, except_bind_eq_ok, bsbPush_eq_ok,
    except_pure_eq_ok] at h
  obtain ⟨he, _, ⟨x, hx, rfl⟩, rfl⟩ := h
  exact ⟨he, x, hx, rfl⟩

theorem bsbCorr_next {m n : RailName} {s t : State} (h : exec (.bsbCorr m n) s = .next t) :
    railExists s.cfg.cls m = true ∧ railExists s.cfg.cls n = true ∧ ∃ a b, s.rail m = some a ∧
      s.rail n = some b ∧ a.length = b.length ∧ t = { s with uresult := some (.int (corr a b)) } := by
  simp only [exec, execBsbCorr, toOutcome_eq_next, onRail_eq_ok, except_bind_eq_ok, bsbCorr_eq_ok,
    except_pure_eq_ok] at h
  obtain ⟨hm, hn, _, ⟨a, b, ha, hb, hlen, rfl⟩, rfl⟩ := h
  exact ⟨hm, hn, a, b, ha, hb, hlen, rfl⟩

theorem bsbClear_next {n : RailName} {s t : State} (h : exec (.bsbClear n) s = .next t) :
    railExists s.cfg.cls n = true ∧ ∃ x, s.rail n = some x ∧
      t = { s.setRail n (some (zeros x.length)) with uresult := none } := by
  simp only [exec, execBsbClear, toOutcome_eq_next, onRail_eq_ok, except_bind_eq_ok, bsbClear_eq_ok,
    except_pure_eq_ok] at h
  obtain ⟨he, _, ⟨x, hx, rfl⟩, rfl⟩ := h
  exact ⟨he, x, hx, rfl⟩

theorem bsbDestroy_next {n : RailName} {s t : State} (h : exec (.bsbDestroy n) s = .next t) :
    railExists s.cfg.cls n = true ∧ ∃ x, s.rail n = some x ∧
      t = { s.setRail n none with uresult := none } := by
  simp only [exec, execBsbDestroy, toOutcome_eq_next, onRail_eq_ok, except_bind_eq_ok, bsbDestroy_eq_ok,
    except_pure_eq_ok] at h
  obtain ⟨he, _, ⟨⟨x, hx⟩, rfl⟩, rfl⟩ := h
  exact ⟨he, x, hx, rfl⟩

/-! ## The sequence generator -/

theorem sgCreate_next {m : Nat} {s t : State} (h : exec (.sgCreate m) s = .next t) :
    s.sg = none ∧ (2 ≤ m ∧ m ≤ 12) ∧
      t = { s with sg := some { m := BitVec.ofNat 4 m, v := sgA s.cfg m }, uresult := none } := by
  simp only [exec, execSgCreate, toOutcome_eq_next, except_bind_eq_ok, sgCreate_eq_ok, except_pure_eq_ok] at h
  obtain ⟨_, ⟨hs, hm, rfl⟩, rfl⟩ := h
  exact ⟨hs, hm, rfl⟩

theorem sgReset_next {s t : State} (h : exec .sgReset s = .next t) :
    ∃ g, s.sg = some g ∧ t = { s with sg := some (sgReset s.cfg g), uresult := none } := by
  simp only [exec, execSgReset, toOutcome_eq_next, onSg_eq_ok] at h
  obtain ⟨g, hg, rfl⟩ := h
  exact ⟨g, hg, rfl⟩

theorem sgNext_next {s t : State} (h : exec .sgNext s = .next t) :
    ∃ g, s.sg = some g ∧
      t = { s with sg := some (sgNext s.cfg g).2, uresult := some (.bit (sgNext s.cfg g).1) } := by
  simp only [exec, execSgNext, toOutcome_eq_next, onSg_eq_ok] at h
  obtain ⟨g, hg, rfl⟩ := h
  exact ⟨g, hg, rfl⟩

theorem sgLen_next {s t : State} (h : exec .sgLen s = .next t) :
    ∃ g, s.sg = some g ∧ t = { s with uresult := some (.int (sgLen g)) } := by
  simp only [exec, execSgLen, toOutcome_eq_next, onSg_eq_ok] at h
  obtain ⟨g, hg, rfl⟩ := h
  exact ⟨g, hg, rfl⟩

theorem sgDestroy_next {s t : State} (h : exec .sgDestroy s = .next t) :
    ∃ g, s.sg = some g ∧ t = { s with sg := none, uresult := none } := by
  simp only [exec, execSgDestroy, toOutcome_eq_next, onSg_eq_ok] at h
  obtain ⟨g, hg, rfl⟩ := h
  exact ⟨g, hg, rfl⟩

/-! ## Expansions -/

@[simp] theorem State.done_answeredError (s : State) (i q : BitVec 32) : (s.done i q).answeredError = false := rfl
@[simp] theorem State.raise_answeredError (s : State) (c : ErrCause) : (s.raise c).answeredError = true := rfl

theorem execExpansion_next {first : Host.Outcome State Fault Refusal} {u : State}
    (h : execExpansion first = .next u) :
    ∃ t, first = .next t ∧ ((t.answeredError = true ∧ u = t.raise .state) ∨
      (t.answeredError = false ∧ exec .bind t = .next u)) := by
  cases first with
  | next t =>
    refine ⟨t, rfl, ?_⟩
    simp only [execExpansion, execExpansionBind] at h
    cases ha : t.answeredError <;> simp only [ha, if_true, Bool.false_eq_true, if_false] at h
    · exact .inr ⟨rfl, h⟩
    · cases h; exact .inl ⟨rfl, rfl⟩
  | fault f => cases f
  | refused r => cases h

/-! ## A step -/

theorem fetch_of_transaction {s : State} {tr : Transaction} {rest : List Input}
    (h : s.input = .transaction tr :: rest) : fetch s = fetchTransaction tr { s with input := rest } := by
  simp [fetch, h]

/-- Only a command word can be illegal, and it then comes with the operand words it asks for. -/
theorem decode_eq_illegal {tr : Transaction} {e : DecodeError} (h : decode tr = .error e)
    (he : e = .illegalOpcode ∨ e = .reservedArg) :
    ∃ w burst, tr = .command w burst ∧ burst.length = operandWords w := by
  cases tr with
  | command w burst =>
    refine ⟨w, burst, rfl, ?_⟩
    simp only [decode, decodeCommand] at h
    split at h
    · assumption
    · cases h; simp at he
  | micro w args =>
    exfalso
    simp only [decode, decodeMicro] at h
    split at h <;> (try split at h) <;> cases h <;> simp at he

/-- Every way a step can answer a next state. -/
theorem step_next {s t : State} (h : step s = .next t) :
    (s.input = [] ∧ t = s) ∨
    (∃ rest, s.input = .hreset :: rest ∧ t = { State.resetWith s.cfg with input := rest }) ∨
    (∃ w burst rest, s.input = .transaction (.command w burst) :: rest ∧ burst.length = operandWords w ∧
      t = ({ s with input := rest } : State).raise .opcode) ∨
    (∃ tr rest i, s.input = .transaction tr :: rest ∧ decode tr = .ok i ∧
      exec i { s with input := rest } = .next t) := by
  cases hi : s.input with
  | nil => rw [step_of_input_nil hi] at h; cases h; simp
  | cons x rest =>
    cases x with
    | hreset => rw [step_of_hreset hi] at h; cases h; simp
    | transaction tr =>
      simp only [step, fetch_of_transaction hi, fetchTransaction] at h
      cases hd : decode tr with
      | ok i => simp only [hd] at h; simp [hd, h]
      | error e =>
        cases e <;> simp only [hd] at h <;> cases h
        · obtain ⟨w, b, rfl, hl⟩ := decode_eq_illegal hd (.inl rfl)
          exact .inr (.inr (.inl ⟨w, b, rest, rfl, hl, rfl⟩))
        · obtain ⟨w, b, rfl, hl⟩ := decode_eq_illegal hd (.inr rfl)
          exact .inr (.inr (.inl ⟨w, b, rest, rfl, hl, rfl⟩))

end Sys2Proof.Machine
end

