-- ==== Sys2Proof/Tests/Slice0.lean ====
section
/-! SUPPORT. Tests on small states, their expected results taken from spec/95_test_vectors.md and from the tables of
the rules; and for every obligation with hypotheses a witness that meets them. -/

namespace Sys2Proof.Tests

open Sys2Proof.Machine

/-! ## Helpers -/

/-- A rail from its bits, oldest first. -/
def bits (l : List Nat) : Rail := l.map (· == 1)

/-- The state an outcome answers, if it is a next state. -/
def after (o : Host.Outcome State Fault Refusal) : Option State :=
  match o with
  | .next s => some s
  | _ => none

/-- The refusal an outcome answers. -/
def why (o : Host.Outcome State Fault Refusal) : Option Refusal :=
  match o with
  | .refused r => some r
  | _ => none

/-- The response of an instruction as `STATUS` code, `VAL_I`, `VAL_Q`. -/
def reply (i : Instr) (s : State) : Option (Nat × Int × Int) := do
  let t ← after (exec i s)
  let r ← t.resp
  return ((statusCode r.status).toNat, r.valI.toInt, r.valQ.toInt)

/-- `LC`, `PN` and `PATH` after an instruction. -/
def control (i : Instr) (s : State) : Option (Lifecycle × BitVec 24 × Path) :=
  (after (exec i s)).map fun t => (t.lc, t.pn, t.path)

/-- The rails after an instruction, `REF_I`, `REF_Q`, `RX_I`, `RX_Q`. -/
def rails (i : Instr) (s : State) : Option (List (Option Rail)) :=
  (after (exec i s)).map fun t => [t.refI, t.refQ, t.rxI, t.rxQ]

/-- The internal port after an instruction. -/
def port (i : Instr) (s : State) : Option (Option MicroResult) := (after (exec i s)).map fun t => t.uresult

/-- An instance in `EMPTY`. -/
def emptyState (cls : CorrClass) : State := State.resetWith (Config.defaultOf cls)

/-- An instance in `READY`. -/
def readyState (cls : CorrClass) (path : Path) (refI : Rail) (refQ : Option Rail) : State :=
  { emptyState cls with
    lc := .ready, pn := BitVec.ofNat 24 refI.length, path := path, refI := some refI, refQ := refQ }

/-- An instance in `BOUND`, nothing pushed yet. -/
def boundState (cls : CorrClass) (path : Path) (refI : Rail) (refQ : Option Rail) (rxI : Rail) (rxQ : Option Rail) :
    State :=
  { readyState cls path refI refQ with lc := .bound, rxI := some rxI, rxQ := rxQ }

/-- Class RR, `BOUND`, explicit pattern 1,0. -/
def rrBound : State := boundState .rr .explicit (bits [1, 0]) none (bits [0, 0]) none

/-- Class CR, `BOUND`, explicit pattern 1,0,1. -/
def crBound : State :=
  boundState .cr .explicit (bits [1, 0, 1]) none (bits [0, 0, 0]) (some (bits [0, 0, 0]))

/-- Class CC, `BOUND`, generator pattern N3. -/
def ccBound : State :=
  boundState .cc .generator (bits [1, 1, 0]) (some (bits [1, 1, 0])) (bits [0, 0, 0]) (some (bits [0, 0, 0]))

/-- Class CC, `BOUND`, the explicit pattern of section 6.2. -/
def ccExplicit : State :=
  boundState .cc .explicit (bits [1, 1, 0, 0]) (some (bits [1, 0, 1, 0])) (bits [0, 0, 0, 0])
    (some (bits [0, 0, 0, 0]))

/-- The state with one result cached. -/
def cached (s : State) (i q : BitVec 26) : State := { s with last := some { i := i, q := q } }

/-- The state with a live generator. -/
def withSg (m : BitVec 4) (v : BitVec 12) : State := { emptyState .rr with sg := some { m := m, v := v } }

/-- The state with inputs presented. -/
def given (s : State) (l : List Input) : State := { s with input := l }

/-! ## Well-formed terms and configurations -/

/-- Too few operand words, and too many. -/
theorem test_wf_refuses_pseq :
    (Instr.pseq 2 [1]).wf = false ∧ (Instr.pseq 0 [1]).wf = false ∧ (Instr.pseq 2 [1, 0]).wf = true := by decide

theorem test_config_wf : ∀ cls ∈ [CorrClass.rr, .cr, .cc], (Config.defaultOf cls).Wf := by decide

/-- Each bound of rule R9, broken one at a time. -/
def refusedConfigs : List Config :=
  [{ Config.default with nmax := 4094 }, { Config.default with nmax := 2 ^ 24 },
   { Config.default with sw := 1 }, { Config.default with sw := 33 }, { Config.default with sgA := [0] },
   { Config.default with sgA := 0 :: defaultSgA.tail }, { Config.default with sgG := 4 :: defaultSgG.tail }]

theorem test_config_refused : refusedConfigs.map (fun c => decide c.Wf) = List.replicate 7 false := by decide

/-! ## Decoding: every constructor's word, written out from rules R72, R73 and R83 -/

theorem test_decode_commands :
    decode (.command 0b00000001_000000000000000000000010 [1, 0]) = .ok (.pseq 2 [1, 0]) ∧
    decode (.command 0b00000010_00000000000000000000_1010 []) = .ok (.pgen 10) ∧
    decode (.command 0b00000011_000000000000000000000000 []) = .ok .bind ∧
    decode (.command 0b00000100_000000000000000000000000 []) = .ok .reset ∧
    decode (.command 0b00000101_000000000000000000000000 [0xFFFF0001]) = .ok (.push 0xFFFF0001) ∧
    decode (.command 0b00000110_000000000000000000000000 []) = .ok .destroy ∧
    decode (.command 0b00000111_000000000000000000000000 []) = .ok .info ∧
    decode (.command 0b00001000_000000000000000000000000 []) = .ok .rdlast ∧
    decode (.command 0b00001001_000000000000000000000000 []) = .ok .pdestroy := by decide

theorem test_decode_micro :
    decode (.micro 0b0001_0000 [.rail .rxQ, .int 4]) = .ok (.bsbCreate .rxQ 4) ∧
    decode (.micro 0b0001_0001 [.rail .rxI, .bit true]) = .ok (.bsbPush .rxI true) ∧
    decode (.micro 0b0001_0010 [.rail .refI, .rail .rxQ]) = .ok (.bsbCorr .refI .rxQ) ∧
    decode (.micro 0b0001_0011 [.rail .rxI]) = .ok (.bsbClear .rxI) ∧
    decode (.micro 0b0001_0100 [.rail .refQ]) = .ok (.bsbDestroy .refQ) ∧
    decode (.micro 0b0010_0000 [.int 12]) = .ok (.sgCreate 12) ∧
    decode (.micro 0b0010_0001 []) = .ok .sgReset ∧
    decode (.micro 0b0010_0010 []) = .ok .sgNext ∧
    decode (.micro 0b0010_0011 []) = .ok .sgLen ∧
    decode (.micro 0b0010_0100 []) = .ok .sgDestroy := by decide

/-- The illegal words of 95_test_vectors.md section 4.1. -/
theorem test_decode_illegal :
    [0x00000000#32, 0x0A000000, 0xFFFFFFFF].map (fun w => decode (.command w [])) =
      List.replicate 3 (.error .illegalOpcode) ∧
    [0x02000010#32, 0x02800000, 0x03000001, 0x05000001].map (fun w => decode (.command w [])) =
      List.replicate 4 (.error .reservedArg) := by decide

/-- The operand words of section 4.1, and a burst of another length. -/
theorem test_operand_words :
    [0x01000008#32, 0x01000000, 0x01FFFFFF, 0x05000000, 0x05000001, 0x0200000A, 0x0A000001].map operandWords =
      [8, 0, 16777215, 1, 0, 0, 0] ∧
    decode (.command 0x05000000#32 []) = .error .operandCount ∧
    decode (.command 0x07000000#32 [1]) = .error .operandCount := by decide

theorem test_table_words :
    decodeTableWord 32 0x09000000 = some .pdestroy ∧ decodeTableWord 32 0x05000000 = some (.push 0) ∧
    decodeTableWord 32 0x01000002 = some (.pseq 2 [0, 0]) ∧ decodeTableWord 8 0x22 = some .sgNext ∧
    decodeTableWord 32 0x0A000000 = none ∧ decodeTableWord 8 0x25 = none ∧ decodeTableWord 16 0 = none := by decide

theorem test_with_fetch_word :
    (State.reset.withFetchWord 32 0x01000001).input = [.transaction (.command 0x01000001 [0])] ∧
    (State.reset.withFetchWord 8 0x20).input = [.transaction (.micro 0x20 [.int 0])] := by decide

/-! ## Hard decisions (95_test_vectors.md section 4.2) -/

theorem test_hard_decision :
    [0x0000#16, 0x0001, 0x0064, 0x7FFF, 0x8000, 0xFF9C, 0xFFFB, 0xFFFF].map hd =
      [false, true, true, true, false, false, false, false] ∧
    [0b00#2, 0b01, 0b10, 0b11].map hd = [false, true, false, false] := by decide

/-- The operand words of the conventions of 95_test_vectors.md, and the widest component. -/
theorem test_operand_components :
    [complexSample 16 1 (-1), complexSample 16 (-1) 1, complexSample 16 (-1) (-1), realSample 16 (-1)] =
      [0xFFFF0001, 0x0001FFFF, 0xFFFFFFFF, 0x0000FFFF] ∧
    compI 32 0x80000000_00000001 = 1#32 ∧ compQ 32 0x80000000_00000001 = 0x80000000#32 := by decide

/-- Lines of 95_test_vectors.md sections 4.3 and 8 (P5), and a sample of the wrong kind. -/
theorem test_assemble :
    (assemble (Config.defaultOf .cc) (.pseq 2 [.complex 1 (-1), .complex (-1) 1])).map (List.map encode) =
      some [.command 0x01000002 [0xFFFF0001, 0x0001FFFF]] ∧
    (assemble (Config.defaultOf .rr) (.push (.real (-5)))).map (List.map encode) =
      some [.command 0x05000000 [0x0000FFFB]] ∧
    (assemble (Config.defaultOf .rr) (.openGen (.name .n7))).map (List.map encode) =
      some [.command 0x02000001 [], .command 0x03000000 []] ∧
    (assemble (Config.defaultOf .rr) (.openSeq 2 [.real 1, .real (-1)])).map (List.map encode) =
      some [.command 0x01000002 [0x00000001, 0x0000FFFF], .command 0x03000000 []] ∧
    assemble (Config.defaultOf .cr) (.push (.real 1)) = none := by decide

theorem test_catalog :
    [CatalogCode.n3, .n7, .n15, .n31, .n63, .n127, .n255, .n511, .n1023, .n2047, .n4095].map
      (fun c => (selLookup c.sel).map fun m => 2 ^ m - 1) =
    [3, 7, 15, 31, 63, 127, 255, 511, 1023, 2047, 4095].map some := by decide

/-! ## Pattern construction (sections 4.3, 4.4 and 7) -/

theorem test_pseq :
    rails (.pseq 4 [0x00010001, 0xFFFF0001, 0x0001FFFF, 0xFFFFFFFF]) (emptyState .cc) =
      some [some (bits [1, 1, 0, 0]), some (bits [1, 0, 1, 0]), none, none] ∧
    rails (.pseq 3 [0xFFFF0001, 0x0001FFFF, 0x00010001]) (emptyState .cr) =
      some [some (bits [1, 0, 1]), none, none, none] ∧
    rails (.pseq 2 [0x7FFF0001, 0x80000000]) (emptyState .rr) = some [some (bits [1, 0]), none, none, none] ∧
    control (.pseq 1 [5]) (emptyState .rr) = some (.ready, 1, .explicit) := by decide

theorem test_pseq_raises :
    reply (.pseq 0 []) (emptyState .rr) = some (4, 0, 0) ∧
    reply (.pseq 2 [1, 0]) { emptyState .rr with cfg := { Config.default with nmax := 1 } } = some (5, 0, 0) ∧
    reply (.pseq 0 []) rrBound = some (2, 0, 0) ∧
    why (exec (.pseq 2 [1]) (emptyState .rr)) = some .operandCount := by decide

/-- N3 and N7 of section 4.4; in class CC both rails hold the same bits. -/
theorem test_pgen :
    rails (.pgen 0) (emptyState .cc) = some [some (bits [1, 1, 0]), some (bits [1, 1, 0]), none, none] ∧
    rails (.pgen 1) (emptyState .cr) = some [some (bits [1, 1, 1, 0, 1, 0, 0]), none, none, none] ∧
    control (.pgen 1) (emptyState .rr) = some (.ready, 7, .generator) := by decide

/-- Sections 1.2 and 7, with the priority of `E_STATE` over `E_SEL`. -/
theorem test_pgen_raises :
    reply (.pgen 11) (emptyState .rr) = some (3, 0, 0) ∧ reply (.pgen 15) rrBound = some (2, 0, 0) := by decide

theorem test_pdestroy :
    control .pdestroy (readyState .cc .generator (bits [1, 1, 0]) (some (bits [1, 1, 0]))) =
      some (.empty, 0, .explicit) ∧
    rails .pdestroy (readyState .cc .generator (bits [1, 1, 0]) (some (bits [1, 1, 0]))) =
      some [none, none, none, none] ∧ reply .pdestroy rrBound = some (2, 0, 0) := by decide

/-! ## The correlator (sections 5, 6 and 7) -/

theorem test_bind :
    rails .bind (readyState .cr .explicit (bits [1, 0, 1]) none) =
      some [some (bits [1, 0, 1]), none, some (bits [0, 0, 0]), some (bits [0, 0, 0])] ∧
    control .bind (readyState .rr .explicit (bits [1, 0]) none) = some (.bound, 2, .explicit) ∧
    reply .bind (emptyState .rr) = some (2, 0, 0) ∧ reply .bind rrBound = some (2, 0, 0) := by decide

theorem test_reset :
    rails .reset (boundState .cr .explicit (bits [1, 0]) none (bits [1, 1]) (some (bits [0, 1]))) =
      some [some (bits [1, 0]), none, some (bits [0, 0]), some (bits [0, 0])] ∧
    (after (exec .reset (cached rrBound 2 0))).map State.lastV = some false ∧
    reply .reset (emptyState .rr) = some (2, 0, 0) := by decide

/-- The first and the eighth push of program P1, and `Q` ignored (section 5.1). -/
theorem test_push_rr :
    reply (.push 1) (boundState .rr .explicit (bits [1, 0, 1, 1, 0, 0, 1, 0]) none
      (bits [0, 0, 0, 0, 0, 0, 0, 0]) none) = some (0, -2, 0) ∧
    reply (.push 0xFFFF) (boundState .rr .explicit (bits [1, 0, 1, 1, 0, 0, 1, 0]) none
      (bits [0, 1, 0, 1, 1, 0, 0, 1]) none) = some (0, 8, 0) ∧
    rails (.push 0x12340001) rrBound = some [some (bits [1, 0]), none, some (bits [0, 1]), none] ∧
    reply (.push 0x12340001) rrBound = some (0, -2, 0) := by decide

/-- Sections 5.4, 6.1 and 6.2: first pushes, and the last push of the conjugates of section 6.2. -/
theorem test_push_complex :
    reply (.push 0x00010001) crBound = some (0, 1, 1) ∧
    reply (.push 0x00010001) ccBound = some (0, 0, -6) ∧ reply (.push 0xFFFF0001) ccBound = some (0, -2, -4) ∧
    reply (.push 0x00010001) ccExplicit = some (0, 0, -4) ∧
    reply (.push 0x0001FFFF) { ccExplicit with
      rxI := some (bits [0, 1, 1, 0]), rxQ := some (bits [0, 0, 1, 0]) } = some (0, 8, 0) := by decide

theorem test_destroy :
    control .destroy rrBound = some (.ready, 2, .explicit) ∧
    rails .destroy rrBound = some [some (bits [1, 0]), none, none, none] ∧
    control .destroy ccBound = some (.empty, 0, .explicit) ∧
    rails .destroy ccBound = some [none, none, none, none] := by decide

/-! ## Diagnostics (section 7) -/

theorem test_info :
    [CorrClass.rr, .cr, .cc].map (fun c => reply .info (emptyState c)) =
      [some (0, 0, 0), some (0, 0, 4), some (0, 0, 8)] ∧
    reply .info (cached ccExplicit 0 0) = some (0, 4, 42) ∧
    reply .info { emptyState .rr with errlog := 0b11111 } = some (0, 0, 7936) ∧
    reply .info { readyState .rr .explicit (bits [1, 0]) none with errlog := 0b11111 } = some (0, 2, 7937) := by
  decide

theorem test_rdlast :
    reply .rdlast (cached rrBound (-2) 0) = some (0, -2, 0) ∧ reply .rdlast rrBound = some (2, 0, 0) ∧
    reply .rdlast (emptyState .rr) = some (2, 0, 0) := by decide

/-! ## The bit buffer (section 2) -/

theorem test_bsb_create :
    rails (.bsbCreate .rxI 4) (emptyState .rr) = some [none, none, some (bits [0, 0, 0, 0]), none] ∧
    why (exec (.bsbCreate .rxI 0) (emptyState .rr)) = some .railLength ∧
    why (exec (.bsbCreate .rxI 4096) (emptyState .rr)) = some .railLength := by decide

theorem test_bsb_push :
    rails (.bsbPush .refI false) (readyState .rr .explicit (bits [1, 0, 1, 1]) none) =
      some [some (bits [0, 1, 1, 0]), none, none, none] ∧
    why (exec (.bsbPush .rxQ true) rrBound) = some .railAbsent := by decide

theorem test_bsb_corr :
    port (.bsbCorr .refI .rxI) (boundState .rr .explicit (bits [1, 0, 1, 1]) none (bits [1, 1, 1, 0]) none) =
      some (some (.int 0)) ∧
    port (.bsbCorr .refI .rxI) (boundState .rr .explicit (bits [1, 1, 0]) none (bits [0, 0, 1]) none) =
      some (some (.int (-3))) ∧
    why (exec (.bsbCorr .refI .rxI) (boundState .rr .explicit (bits [1, 1]) none (bits [0]) none)) =
      some .unequalLengths := by decide

theorem test_bsb_clear_destroy :
    rails (.bsbClear .refI) (readyState .rr .explicit (bits [1, 0, 1, 1]) none) =
      some [some (bits [0, 0, 0, 0]), none, none, none] ∧
    rails (.bsbDestroy .refI) (readyState .rr .explicit (bits [1, 0]) none) = some [none, none, none, none] ∧
    why (exec (.bsbDestroy .rxI) (emptyState .rr)) = some .railNotLive := by decide

/-! ## The sequence generator (section 3) -/

theorem test_sg_create_reset_destroy :
    (after (exec (.sgCreate 12) (emptyState .rr))).map State.sg = some (some { m := 12, v := 0x800 }) ∧
    (after (exec .sgReset (withSg 3 0b110))).map State.sg = some (some { m := 3, v := 0b100 }) ∧
    (after (exec .sgDestroy (withSg 3 0b110))).map State.sg = some none ∧
    why (exec (.sgCreate 13) (emptyState .rr)) = some .sgOrder ∧
    why (exec (.sgCreate 3) (withSg 3 0b100)) = some .sgAlreadyLive ∧
    why (exec .sgDestroy (emptyState .rr)) = some .sgNotLive := by decide

theorem test_sg_next :
    (after (exec .sgNext (withSg 3 0b111))).map (fun t => (t.sg, t.uresult)) =
      some (some { m := 3, v := 0b110 }, some (.bit false)) ∧
    (after (exec .sgNext (withSg 3 0b100))).map (fun t => (t.sg, t.uresult)) =
      some (some { m := 3, v := 0b001 }, some (.bit true)) := by decide

theorem test_sg_streams :
    sgBits Config.default 2 3 = bits [1, 1, 0] ∧ sgBits Config.default 3 7 = bits [1, 1, 1, 0, 1, 0, 0] ∧
    sgBits Config.default 4 15 = bits [1, 1, 1, 1, 0, 1, 0, 1, 1, 0, 0, 1, 0, 0, 0] := by decide

/-- The first bits of section 3's table for the orders above 4. -/
theorem test_sg_table :
    sgBits Config.default 5 8 = bits [1, 0, 1, 0, 1, 1, 1, 0] ∧
    sgBits Config.default 6 8 = bits [1, 1, 1, 1, 1, 1, 0, 1] ∧
    sgBits Config.default 7 8 = bits [1, 0, 0, 1, 0, 0, 1, 1] ∧
    sgBits Config.default 8 8 = bits [1, 0, 1, 1, 0, 0, 0, 1] ∧
    sgBits Config.default 9 8 = bits [1, 0, 0, 0, 1, 0, 0, 0] ∧
    sgBits Config.default 10 8 = bits [1, 0, 0, 1, 0, 0, 1, 0] ∧
    sgBits Config.default 11 8 = bits [1, 0, 1, 0, 1, 0, 1, 0] ∧
    sgBits Config.default 12 8 = bits [1, 1, 1, 1, 0, 1, 1, 1] := by decide

theorem test_sg_len :
    sgOrders.map (fun m => port .sgLen (withSg (BitVec.ofNat 4 m) 1)) =
      [3, 7, 15, 31, 63, 127, 255, 511, 1023, 2047, 4095].map (fun n => some (some (.int n))) := by decide

/-! ## Steps -/

/-- An illegal word raises, HRESET clears, an empty port keeps the state, a reserved micro-operation is refused. -/
theorem test_step :
    (after (step (given rrBound [.transaction (.command 0x0A000000 [])]))).map State.errlog = some 1 ∧
    after (step (given { rrBound with errlog := 31 } [.hreset, .hreset])) = some (given (emptyState .rr) [.hreset]) ∧
    after (step rrBound) = some rrBound ∧
    why (step (given rrBound [.transaction (.micro 0x30 [])])) = some .reservedMicro ∧
    why (step (given rrBound [.transaction (.micro 0x10 [])])) = some .microOperands := by decide

/-! ## Witnesses: states and operands that meet the hypotheses of the obligations -/

theorem witness_DecodeOfEncodeIsTheInstruction :
    (Instr.pseq 2 [1, 0]).wf = true ∧ (Instr.pgen 15).wf = true ∧ (Instr.bsbCreate .rxQ 4095).wf = true := by decide

theorem witness_EncodeOfDecodeIsTheTransaction :
    decode (.command 0x0200000F []) = .ok (.pgen 15) ∧ decode (.micro 0x14 [.rail .rxQ]) = .ok (.bsbDestroy .rxQ) := by
  decide

/-- Both clauses at the words where they meet. -/
theorem witness_EveryCommandWordIsACommandOrRaises :
    [0x00FFFFFF#32, 0x02000010, 0x03000001, 0x05000001, 0x09FFFFFF, 0x0A000000, 0xFFFFFFFF].map
      (fun w => (operandWords w, decide (IllegalWord w))) = List.replicate 7 (0, true) ∧
    [0x01000000#32, 0x0200000F, 0x03000000, 0x09000000].map
      (fun w => (operandWords w, decide (IllegalWord w))) = List.replicate 4 (0, false) ∧
    ([7] : List OpWord).length = operandWords 0x05000000 ∧ ¬ IllegalWord 0x05000000 ∧
    (given rrBound [.transaction (.command 0x05000000 [7])]).input = [.transaction (.command 0x05000000 [7])] := by
  decide

theorem witness_OperandWordsFollowFromTheWord :
    (given rrBound [.transaction (.command 0x05000000 [])]).input = [.transaction (.command 0x05000000 [])] ∧
    ([] : List OpWord).length ≠ operandWords 0x05000000 ∧
    (after (step (given rrBound [.transaction (.command 0x05000000 [7])]))).isSome = true := by decide

theorem witness_StepRunsTheDecodedInstruction :
    (given rrBound [.transaction (.command 0x05000000 [7])]).input = [.transaction (.command 0x05000000 [7])] ∧
    decode (.command 0x05000000 [7]) = .ok (.push 7) ∧ (Instr.push 7).wf = true := by decide

theorem witness_ReservedMicroWordsAreRefused :
    (∀ i, encode i ≠ .micro 0x12 []) ∧
    (given rrBound [.transaction (.micro 0x12 [])]).input = [.transaction (.micro 0x12 [])] ∧
    ∀ w ∈ [0x00#8, 0x0F, 0x15, 0x1F, 0x25, 0x30, 0xFF],
      w.toNat / 16 = 0 ∨ 3 ≤ w.toNat / 16 ∨ 5 ≤ w.toNat % 16 := by
  refine ⟨?_, rfl, by decide⟩
  intro i
  cases i <;> simp [encode]

theorem witness_IdleKeepsEverything : rrBound.input = [] := rfl

theorem witness_HresetGivesResetValues :
    (given { rrBound with errlog := 31 } [.hreset]).input = .hreset :: [] := rfl

/-- The four branches, at lengths 0, 1, `NMAX` and `NMAX` + 1. -/
theorem witness_PseqBuildsThePattern :
    rrBound.lc ≠ .empty ∧ (emptyState .cc).lc = .empty ∧ ([] : List OpWord).length = (0#24).toNat ∧
    ([1] : List OpWord).length = (1#24).toNat ∧ (List.replicate 4095 (1 : OpWord)).length = (4095#24).toNat ∧
    (List.replicate 4096 (1 : OpWord)).length = (4096#24).toNat ∧ (emptyState .cc).cfg.nmax < (4096#24).toNat :=
  ⟨by decide, rfl, rfl, rfl, List.length_replicate, List.length_replicate, by decide⟩

theorem witness_PgenDrainsTheGenerator :
    (emptyState .cc).sg = none ∧ 4095 ≤ (emptyState .cc).cfg.nmax ∧ (emptyState .cc).lc = .empty ∧
    rrBound.lc ≠ .empty ∧ ¬ 10 < (10#4).toNat ∧ 10 < (11#4).toNat := by decide

theorem witness_PgenRaisesInOrder :
    rrBound.lc ≠ .empty ∧ (emptyState .rr).lc = .empty ∧ 11 ≤ (11#4).toNat ∧ 11 ≤ (15#4).toNat ∧
    (emptyState .rr).sg = none ∧ (after (exec (.pgen 0) (emptyState .rr))).isSome = true := by decide

theorem witness_PgenDependsOnSelectorAndTableOnly :
    (emptyState .cc).lc = .empty ∧ ({ emptyState .rr with errlog := 31 } : State).lc = .empty ∧
    (0#4).toNat ≤ 10 ∧ (emptyState .cc).cfg.sgG = (emptyState .rr).cfg.sgG ∧
    (emptyState .cc).cfg.sgA = (emptyState .rr).cfg.sgA ∧
    (after (exec (.pgen 0) (emptyState .cc))).isSome = true ∧
    (after (exec (.pgen 0) { emptyState .rr with errlog := 31 })).isSome = true := by decide

theorem witness_PdestroyReleasesThePattern :
    (readyState .cc .explicit (bits [1]) (some (bits [0]))).lc = .ready ∧
    (readyState .cc .explicit (bits [1]) (some (bits [0]))).refI = some (bits [1]) ∧
    (readyState .cc .explicit (bits [1]) (some (bits [0]))).refQ ≠ none ∧ rrBound.lc ≠ .ready := by decide

theorem witness_BindCreatesAZeroWindow :
    (readyState .rr .explicit (bits [1]) none).lc = .ready ∧
    1 ≤ (readyState .rr .explicit (bits [1]) none).pn.toNat ∧
    (readyState .rr .explicit (bits [1]) none).pn.toNat ≤ (readyState .rr .explicit (bits [1]) none).cfg.nmax ∧
    rrBound.lc ≠ .ready := by decide

theorem witness_ResetClearsTheWindow :
    rrBound.lc = .bound ∧ rrBound.rxI = some (bits [0, 0]) ∧ rrBound.cfg.cls = .rr ∧
    crBound.rxQ = some (bits [0, 0, 0]) ∧ (emptyState .rr).lc ≠ .bound := by decide

/-- One state for each class, and one that is not bound. -/
theorem witness_PushScoresEveryClass :
    (emptyState .rr).lc ≠ .bound ∧
    (rrBound.lc = .bound ∧ rrBound.cfg.cls = .rr ∧ rrBound.refI = some (bits [1, 0]) ∧
      rrBound.rxI = some (bits [0, 0]) ∧ bits [0, 1] = shifted (bits [0, 0]) (hdI 16 1)) ∧
    (crBound.lc = .bound ∧ crBound.cfg.cls = .cr ∧ crBound.refI = some (bits [1, 0, 1]) ∧
      crBound.rxI = some (bits [0, 0, 0]) ∧ crBound.rxQ = some (bits [0, 0, 0])) ∧
    (ccBound.lc = .bound ∧ ccBound.cfg.cls = .cc ∧ ccBound.refI = some (bits [1, 1, 0]) ∧
      ccBound.refQ = some (bits [1, 1, 0]) ∧ ccBound.rxI = some (bits [0, 0, 0]) ∧
      ccBound.rxQ = some (bits [0, 0, 0]) ∧ bits [0, 0, 1] = shifted (bits [0, 0, 0]) (hdI 16 0x00010001)) := by
  decide

theorem witness_DestroyReleasesByPath :
    rrBound.lc = .bound ∧ rrBound.rxI ≠ none ∧ rrBound.cfg.cls = .rr ∧ rrBound.path = .explicit ∧
    ccBound.lc = .bound ∧ ccBound.rxI ≠ none ∧ ccBound.rxQ ≠ none ∧ ccBound.path = .generator ∧
    ccBound.refI ≠ none ∧ ccBound.refQ ≠ none ∧ (emptyState .rr).lc ≠ .bound := by decide

theorem witness_PushIsAgnosticToPath : (after (exec (.push 1) ccBound)).isSome = true := by decide

theorem witness_OutOfOrderCommandRaises :
    (Instr.push 1).wf = true ∧ neededState (.push 1) = some .bound ∧ (emptyState .rr).lc ≠ .bound ∧
    neededState (.pseq 0 []) = some .empty ∧ rrBound.lc ≠ .empty ∧ neededState .pdestroy = some .ready ∧
    rrBound.lc ≠ .ready ∧ rrBound.last = none := by decide

theorem witness_RaisingCommandChangesNothingElse :
    Instr.bind.isCommand = true ∧ IllegalWord 0x0A000000 ∧ (after (exec .bind rrBound)).bind State.resp =
      some { status := .error .state, valI := 0, valQ := 0 } := by decide

theorem witness_ErrlogIsSticky :
    (after (step rrBound)).isSome = true ∧ (∀ rest, rrBound.input ≠ .hreset :: rest) ∧
    IllegalWord 0x0A000000 ∧ (after (step (given rrBound [.hreset]))).isSome = true := by
  exact ⟨by decide, by simp [rrBound, boundState, readyState, emptyState], by decide, by decide⟩

theorem witness_LivePatternIsImmutable :
    (Instr.push 1).isCommand = true ∧ ccBound.lc ≠ .empty ∧
    (after (exec (.push 1) ccBound)).map State.lc = some .bound := by decide

theorem witness_ParametersNeverChange :
    (after (step (given rrBound [.transaction (.command 0x06000000 [])]))).isSome = true := by decide

theorem witness_DiagnosticsWriteNoState :
    (after (exec .info rrBound)).isSome = true ∧ (after (exec .rdlast rrBound)).isSome = true ∧
    (after (exec .rdlast (cached rrBound 2 0))).bind State.resp = some { status := .ok, valI := 2, valQ := 0 } := by
  decide

/-- 5 and 32767 push the same bit; in class RR any two `Q` fields do. -/
theorem witness_OnlyUsedHardDecisionsMatter :
    hdI rrBound.cfg.sw 0x12340005 = hdI rrBound.cfg.sw 0xFFFF7FFF ∧ rrBound.cfg.cls = .rr ∧
    hdI ccBound.cfg.sw 0x00010005 = hdI ccBound.cfg.sw 0x7FFF0001 ∧
    hdQ ccBound.cfg.sw 0x00010005 = hdQ ccBound.cfg.sw 0x7FFF0001 ∧
    [(0x00010005 : OpWord)].map (hdI 16) = [0x7FFF0001].map (hdI 16) ∧
    [(0x00010005 : OpWord)].map (hdQ 16) = [0x7FFF0001].map (hdQ 16) := by decide

/-- The least and the greatest numbers that fit, the first that do not, and lines that assemble. -/
theorem witness_AssemblyDeliversTheSamples :
    2 ≤ 16 ∧ 32 ≤ 32 ∧ (-(2 ^ (16 - 1) : Int) ≤ -32768 ∧ (-32768 : Int) < 2 ^ (16 - 1)) ∧
    (-(2 ^ (16 - 1) : Int) ≤ 32767 ∧ (32767 : Int) < 2 ^ (16 - 1)) ∧
    ¬(-(2 ^ (16 - 1) : Int) ≤ 32768 ∧ (32768 : Int) < 2 ^ (16 - 1)) ∧
    (assembleSample 32 true (.complex (-2147483648) 2147483647)).isSome = true ∧
    assembleSample 16 true (.complex 0 (-32769)) = none ∧
    assemble (Config.defaultOf .cr) (.push (.complex 1 (-1))) = some [.push 0xFFFF0001] ∧
    assemble (Config.defaultOf .rr) (.pseq 2 [.real 1, .real (-1)]) = some [.pseq 2 [0x00000001, 0x0000FFFF]] := by
  decide

theorem witness_BsbCreateMakesZeros :
    railExists (emptyState .rr).cfg.cls .rxI = true ∧ 1 ≤ 4095 ∧ 4095 ≤ (emptyState .rr).cfg.nmax ∧
    (emptyState .rr).cfg.nmax < 4096 := by decide

theorem witness_BsbPushShifts :
    railExists crBound.cfg.cls .rxQ = true ∧ crBound.rail .rxQ = some (bits [0, 0, 0]) ∧ bits [0, 0, 0] ≠ [] := by
  decide

theorem witness_BsbCorrCountsAgreement :
    railExists rrBound.cfg.cls .refI = true ∧ railExists rrBound.cfg.cls .rxI = true ∧
    rrBound.rail .refI = some (bits [1, 0]) ∧ rrBound.rail .rxI = some (bits [0, 0]) ∧
    (bits [1, 0]).length = (bits [0, 0]).length ∧
    ({ rrBound with rxI := some (bits [1]) } : State).rail .rxI = some (bits [1]) ∧
    (bits [1, 0]).length ≠ (bits [1]).length := by decide

theorem witness_BsbClearKeepsTheLength :
    railExists ccBound.cfg.cls .refQ = true ∧ ccBound.rail .refQ = some (bits [1, 1, 0]) := by decide

theorem witness_BsbDestroyEndsTheRail :
    railExists ccBound.cfg.cls .refQ = true ∧ ccBound.rail .refQ = some (bits [1, 1, 0]) ∧
    (emptyState .cc).rail .rxQ = none ∧ railExists (emptyState .cc).cfg.cls .rxQ = true := by decide

theorem witness_AbsentRailIsRefused :
    railExists rrBound.cfg.cls .rxQ = false ∧ railExists crBound.cfg.cls .refQ = false := by decide

theorem witness_CorrelationLaws :
    (bits [1, 0, 1]).length = (bits [0, 0, 1]).length ∧ ([] : Rail).length = ([] : Rail).length := by decide

theorem witness_OneFlippedBitMovesTheCorrelationByTwo :
    (bits [1, 0, 1]).length = (bits [1, 1, 1]).length ∧ (bits [1, 0, 1])[2]? = some true ∧
    (bits [1, 1, 1])[2]? = some true ∧ (bits [1, 0, 1])[1]? = some false ∧ (bits [1, 1, 1])[1]? = some true := by
  decide

theorem witness_PushesSlideTheWindow :
    (bits [1, 0, 1]).length ≤ (bits [0, 0, 1]).length ∧ (bits [0, 1]).length < (bits [1, 0, 1]).length := by decide

theorem witness_SgCreateInitialises :
    (emptyState .rr).sg = none ∧ 2 ≤ 12 ∧ 1 < 2 ∧ 12 < 13 ∧ (withSg 3 1).sg ≠ none := by decide

theorem witness_SgResetLenDestroy :
    (emptyState .rr).sg = none ∧ (withSg 12 1).sg = some { m := 12, v := 1 } := by decide

theorem witness_SgNextAdvancesTheRegister :
    (withSg 12 0x800).sg = some { m := 12, v := 0x800 } ∧ 2 ≤ (12#4).toNat ∧ (12#4).toNat ≤ 12 := by decide

theorem maximalPeriod_two : MaximalPeriod Config.default 2 := by
  refine ⟨by decide, fun k h0 h1 => ?_⟩
  have h3 : k < 3 := h1
  interval_cases k <;> decide

theorem witness_SgRegisterIsNeverZero :
    (withSg 2 0b11).cfg.Wf ∧ SgOnOrbit (withSg 2 0b11) ∧ (withSg 2 0b11).sg = some { m := 2, v := 0b11 } ∧
    MaximalPeriod (withSg 2 0b11).cfg (2#4).toNat ∧ (after (step (withSg 2 0b11))).isSome = true := by
  refine ⟨by decide, ?_, rfl, maximalPeriod_two, by decide⟩
  rintro g h
  obtain rfl : g = { m := 2, v := 0b11 } := by simpa [withSg, eq_comm] using h
  exact ⟨by decide, 2, by decide⟩

theorem witness_FullPeriodIsBalanced :
    Config.default.Wf ∧ 2 ≤ 2 ∧ 2 ≤ 12 ∧ MaximalPeriod Config.default 2 :=
  ⟨by decide, by decide, by decide, maximalPeriod_two⟩

/-! ## States that meet the invariants -/

theorem hostInv_empty (cls : CorrClass) : HostInv (emptyState cls) where
  config := by cases cls <;> decide
  hostDriven := by simp [HostDriven, emptyState]
  boundary := by constructor <;> simp [emptyState]

theorem hostInv_rrBound (l : List OpWord) : HostInv (given rrBound (pushInputs l)) where
  config := show (Config.defaultOf .rr).Wf by decide
  hostDriven := by simp [HostDriven, given, pushInputs, Input.isHost, encode]
  boundary :=
    { emptyHoldsNothing := nofun
      patternIsLive := fun _ => ⟨show 1 ≤ 2 ∧ 2 ≤ 4095 by decide, ⟨_, rfl, rfl⟩, rfl⟩
      generatorPattern := nofun
      unboundHasNoWindow := fun h => absurd rfl h
      boundHasWindow := fun _ => ⟨⟨_, rfl, rfl⟩, rfl⟩
      cacheIsBounded := nofun
      generatorIsDead := rfl }

/-- The same instance with another window. -/
theorem hostInv_rrBound' (l : List OpWord) :
    HostInv (given { rrBound with rxI := some (bits [1, 1]) } (pushInputs l)) where
  config := show (Config.defaultOf .rr).Wf by decide
  hostDriven := by simp [HostDriven, given, pushInputs, Input.isHost, encode]
  boundary :=
    { emptyHoldsNothing := nofun
      patternIsLive := fun _ => ⟨show 1 ≤ 2 ∧ 2 ≤ 4095 by decide, ⟨_, rfl, rfl⟩, rfl⟩
      generatorPattern := nofun
      unboundHasNoWindow := fun h => absurd rfl h
      boundHasWindow := fun _ => ⟨⟨_, rfl, rfl⟩, rfl⟩
      cacheIsBounded := nofun
      generatorIsDead := rfl }

theorem hostInv_crBound : HostInv crBound where
  config := show (Config.defaultOf .cr).Wf by decide
  hostDriven := by simp [HostDriven, crBound, boundState, readyState, emptyState]
  boundary :=
    { emptyHoldsNothing := nofun
      patternIsLive := fun _ => ⟨show 1 ≤ 3 ∧ 3 ≤ 4095 by decide, ⟨_, rfl, rfl⟩, rfl⟩
      generatorPattern := nofun
      unboundHasNoWindow := fun h => absurd rfl h
      boundHasWindow := fun _ => ⟨⟨_, rfl, rfl⟩, ⟨_, rfl, rfl⟩⟩
      cacheIsBounded := nofun
      generatorIsDead := rfl }

theorem hostInv_ccBound (l : List OpWord) : HostInv (given ccBound (pushInputs l)) where
  config := show (Config.defaultOf .cc).Wf by decide
  hostDriven := by simp [HostDriven, given, pushInputs, Input.isHost, encode]
  boundary :=
    { emptyHoldsNothing := nofun
      patternIsLive := fun _ => ⟨show 1 ≤ 3 ∧ 3 ≤ 4095 by decide, ⟨_, rfl, rfl⟩, ⟨_, rfl, rfl⟩⟩
      generatorPattern := fun _ => ⟨⟨2, show 2 ≤ 2 ∧ 2 ≤ 12 ∧ 3 = 2 ^ 2 - 1 by decide⟩, fun _ => rfl⟩
      unboundHasNoWindow := fun h => absurd rfl h
      boundHasWindow := fun _ => ⟨⟨_, rfl, rfl⟩, ⟨_, rfl, rfl⟩⟩
      cacheIsBounded := nofun
      generatorIsDead := rfl }

theorem unitInv_withSg : UnitInv (given (withSg 12 0xFFF) [.transaction (.micro 0x22 [])]) where
  config := by decide
  rails := by intro n r; cases n <;> simp [State.rail, given, withSg, emptyState]
  generator := by
    intro g h
    obtain rfl : g = { m := 12, v := 0xFFF } := by simpa [given, withSg, eq_comm] using h
    decide

theorem witness_ResetEqualsAFreshBind :
    HostInv (given rrBound []) ∧ (given rrBound []).lc = .bound ∧ (after (exec .reset rrBound)).isSome = true :=
  ⟨hostInv_rrBound [], rfl, by decide⟩

theorem witness_RdlastReturnsTheCache :
    ((cached rrBound (-2) 0).lc = .bound ∧ (cached rrBound (-2) 0).last = some { i := -2, q := 0 }) ∧
    (emptyState .rr).lc ≠ .bound ∧ rrBound.last = none ∧ HostInv crBound ∧ crBound.lc = .bound ∧
    Instr.reset.isCommand = true ∧ (∀ op, Instr.reset ≠ .push op) ∧ (after (exec .reset crBound)).isSome = true :=
  ⟨by decide, by decide, rfl, hostInv_crBound, rfl, rfl, nofun, by decide⟩

theorem witness_LifecycleMovesAsTabulated :
    HostInv (emptyState .cr) ∧ (Instr.pgen 10).isCommand = true ∧ (Instr.pgen 10).wf = true ∧
    (∀ l, neededState (.pgen 10) = some l → (emptyState .cr).lc = l) ∧ operandsValid (emptyState .cr) (.pgen 10) ∧
    neededState .bind = some .ready ∧ (emptyState .cr).lc ≠ .ready ∧ crBound.last = none ∧
    (given rrBound [.hreset]).input = .hreset :: [] := by
  refine ⟨hostInv_empty .cr, rfl, rfl, ?_, ?_, rfl, by decide, rfl, rfl⟩
  · rintro l h; cases h; rfl
  · show (10#4).toNat ≤ 10; decide

theorem witness_StepKeepsTheHostInvariant :
    HostInv (given ccBound (pushInputs [1])) ∧ (after (step (given ccBound (pushInputs [1])))).isSome = true :=
  ⟨hostInv_ccBound [1], by decide⟩

theorem witness_StepKeepsTheUnitInvariant :
    UnitInv (given (withSg 12 0xFFF) [.transaction (.micro 0x22 [])]) ∧
    (after (step (given (withSg 12 0xFFF) [.transaction (.micro 0x22 [])]))).isSome = true :=
  ⟨unitInv_withSg, by decide⟩

theorem witness_ResetMeetsTheInvariants : (Config.defaultOf .cc).Wf := by decide

theorem witness_EveryHostCommandCompletes :
    HostInv (emptyState .cr) ∧ (Instr.pseq 1 [1]).isCommand = true ∧ (Instr.pseq 1 [1]).wf = true :=
  ⟨hostInv_empty .cr, rfl, rfl⟩

/-- The pattern 1,0 and the symbols 1, 0. -/
theorem witness_PerfectAlignmentOfARealPattern :
    HostInv (given rrBound (pushInputs [1, 0])) ∧ (given rrBound (pushInputs [1, 0])).lc = .bound ∧
    (given rrBound (pushInputs [1, 0])).cfg.cls = .rr ∧
    (given rrBound (pushInputs [1, 0])).refI = some (([1, 0] : List OpWord).map (hdI 16)) ∧
    (given rrBound (pushInputs [1, 0])).input = pushInputs [1, 0] :=
  ⟨hostInv_rrBound _, rfl, rfl, by decide, rfl⟩

/-- The pattern 1,0,1 and the symbols (1,0), (-1,0), (1,0). -/
theorem witness_PerfectAlignmentOfComplexSymbols :
    HostInv (given crBound (pushInputs [1, 0xFFFF, 1])) ∧ crBound.lc = .bound ∧ crBound.cfg.cls = .cr ∧
    crBound.refI = some (bits [1, 0, 1]) ∧ bits [1, 0, 1] = ([1, 0xFFFF, 1] : List OpWord).map (hdI 16) ∧
    ∀ op ∈ ([1, 0xFFFF, 1] : List OpWord), hdQ 16 op = false := by
  refine ⟨⟨show (Config.defaultOf .cr).Wf by decide, ?_, ?_⟩, rfl, rfl, rfl, by decide, ?_⟩
  · simp [HostDriven, given, pushInputs, Input.isHost, encode]
  · have h := hostInv_crBound.boundary
    exact ⟨h.1, h.2, h.3, h.4, h.5, h.6, h.7⟩
  · intro op h
    simp only [List.mem_cons, List.not_mem_nil, or_false] at h
    rcases h with rfl | rfl | rfl <;> decide

/-- The pattern N3, once with its own symbols and once with their conjugates. -/
theorem witness_PerfectAlignmentOfAComplexPattern :
    (∀ l : List OpWord, HostInv (given ccBound (pushInputs l)) ∧ (given ccBound (pushInputs l)).input = pushInputs l) ∧
    ccBound.lc = .bound ∧ ccBound.cfg.cls = .cc ∧ ccBound.refI = some (bits [1, 1, 0]) ∧
    ccBound.refQ = some (bits [1, 1, 0]) ∧
    bits [1, 1, 0] = ([0x00010001, 0x00010001, 0xFFFFFFFF] : List OpWord).map (hdI 16) ∧
    bits [1, 1, 0] = ([0x00010001, 0x00010001, 0xFFFFFFFF] : List OpWord).map (hdQ 16) ∧
    bits [1, 1, 0] = ([0xFFFF0001, 0xFFFF0001, 0x0001FFFF] : List OpWord).map (hdI 16) ∧
    bits [1, 1, 0] = ([0xFFFF0001, 0xFFFF0001, 0x0001FFFF] : List OpWord).map (fun w => !(hdQ 16 w)) :=
  ⟨fun l => ⟨hostInv_ccBound l, rfl⟩, rfl, rfl, rfl, rfl, by decide, by decide, by decide, by decide⟩

theorem witness_WindowForgetsThePast :
    HostInv (given rrBound (pushInputs [1, 0])) ∧
    HostInv (given { rrBound with rxI := some (bits [1, 1]) } (pushInputs [1, 0])) ∧
    rrBound.lc = .bound ∧ rrBound.pn.toNat ≤ ([1, 0] : List OpWord).length :=
  ⟨hostInv_rrBound _, hostInv_rrBound' _, rfl, by decide⟩

theorem witness_GeneratorPatternScoring :
    HostInv (given ccBound []) ∧ ccBound.lc = .bound ∧ ccBound.path = .generator ∧ ccBound.cfg.cls = .cc :=
  ⟨hostInv_ccBound [], rfl, rfl, rfl⟩

theorem witness_CorrelationIsBoundedPerClass :
    (HostInv (given rrBound []) ∧ (after (exec (.push 1) rrBound)).bind State.resp ≠ none) ∧
    (HostInv crBound ∧ crBound.cfg.cls = .cr ∧ (after (exec (.push 1) crBound)).bind State.resp ≠ none) ∧
    (HostInv (given ccBound []) ∧ (after (exec (.push 1) ccBound)).bind State.resp ≠ none) :=
  ⟨⟨hostInv_rrBound [], by decide⟩, ⟨hostInv_crBound, rfl, by decide⟩, ⟨hostInv_ccBound [], by decide⟩⟩

theorem hostInv_rrReady : HostInv (readyState .rr .explicit (bits [1]) none) where
  config := by decide
  hostDriven := by simp [HostDriven, readyState, emptyState]
  boundary :=
    { emptyHoldsNothing := nofun
      patternIsLive := fun _ => ⟨by decide, ⟨_, rfl, rfl⟩, rfl⟩
      generatorPattern := nofun
      unboundHasNoWindow := fun _ => ⟨rfl, rfl⟩
      boundHasWindow := nofun
      cacheIsBounded := nofun
      generatorIsDead := rfl }

/-- P5 from `EMPTY`, and a line that raises in `READY`, where rule R91 has the second command raise too. -/
theorem test_expansions :
    ((execLine (.openGen (.name .n7)) (emptyState .rr)).bind after).map (fun t => (t.lc, t.pn, t.path)) =
      some (.bound, 7, .generator) ∧
    ((execLine (.openGen (.number 12)) (emptyState .rr)).bind after).map (fun t => (t.lc, t.errlog)) =
      some (.empty, 0b00110) ∧
    ((execLine (.openSeq 1 [.real 1]) (readyState .rr .explicit (bits [1]) none)).bind after).map
      (fun t => (t.lc, t.errlog, t.resp)) =
      some (.ready, 0b00010, some { status := .error .state, valI := 0, valQ := 0 }) := by decide

/-- An expansion that completes, two that raise, and a state in each of the three lifecycle states. -/
theorem witness_PseudoInstructionsOpenOrRaise :
    HostInv (emptyState .rr) ∧ HostInv (readyState .rr .explicit (bits [1]) none) ∧
    (readyState .rr .explicit (bits [1]) none).lc = .ready ∧ HostInv crBound ∧ crBound.lc ≠ .ready ∧
    openSeq 2 [1, 0] = [.pseq 2 [1, 0], .bind] ∧ (Instr.pseq 2 [1, 0]).wf = true ∧
    openSeq 0 [] = [.pseq 0 [], .bind] ∧ openGen 12 = [.pgen 12, .bind] :=
  ⟨hostInv_empty .rr, hostInv_rrReady, rfl, hostInv_crBound, by decide, rfl, rfl, rfl, rfl⟩

end Sys2Proof.Tests
end

/-! ## Scope: how a command ends, illegal words, and what every step keeps -/

namespace Sys2Proof.Machine

/-! ### How a command ends (00_scope.md rule R13) -/

/-- How a command that starts in `s` can end: it raises a cause from `s` itself, or it completes by `done`, with the
parameters of `s`. -/
inductive CommandEnd (s : State) : State → Prop where
  | raised (c : ErrCause) : CommandEnd s (s.raise c)
  | completed {u : State} (i q : BitVec 32) (hcfg : u.cfg = s.cfg) : CommandEnd s (u.done i q)

theorem exec_commandEnd {i : Instr} {s t : State} (hi : i.isCommand = true) (h : exec i s = .next t) :
    CommandEnd s t := by
  cases i with
  | pseq n burst =>
    obtain ⟨_, ⟨_, rfl⟩ | ⟨_, _, rfl⟩ | ⟨_, _, rfl⟩ | ⟨_, _, _, rfl⟩⟩ := pseq_next h
    exacts [.raised _, .raised _, .raised _, .completed _ _ rfl]
  | pgen sel =>
    obtain ⟨_, rfl⟩ | ⟨_, _, rfl⟩ | ⟨_, _, _, _, rfl⟩ := pgen_next h
    exacts [.raised _, .raised _, .completed _ _ rfl]
  | bind =>
    obtain ⟨_, rfl⟩ | ⟨_, _, _, rfl⟩ := bind_next h
    exacts [.raised _, .completed _ _ rfl]
  | reset =>
    obtain ⟨_, rfl⟩ | ⟨_, _, _, _, rfl⟩ := reset_next h
    exacts [.raised _, .completed _ _ rfl]
  | push op =>
    obtain ⟨_, rfl⟩ | ⟨_, _, _, _, _, _, _, _, _, rfl⟩ := push_next h
    exacts [.raised _, .completed _ _ rfl]
  | destroy =>
    obtain ⟨_, rfl⟩ | ⟨_, _, _, ⟨_, rfl⟩ | ⟨_, _, _, rfl⟩⟩ := destroy_next h
    exacts [.raised _, .completed _ _ rfl, .completed _ _ rfl]
  | info =>
    obtain rfl := info_next h
    exact .completed _ _ rfl
  | rdlast =>
    obtain ⟨_, rfl⟩ | ⟨_, _, _, rfl⟩ := rdlast_next h
    exacts [.raised _, .completed _ _ rfl]
  | pdestroy =>
    obtain ⟨_, rfl⟩ | ⟨_, _, _, rfl⟩ := pdestroy_next h
    exacts [.raised _, .completed _ _ rfl]
  | _ => cases hi

theorem CommandEnd.cfg_eq {s t : State} (h : CommandEnd s t) : t.cfg = s.cfg := by
  cases h with
  | raised c => rfl
  | completed _ _ hcfg => exact hcfg

/-- An error response comes from `raise` alone, since `done` answers `OK` (30_encoding.md rule R86). -/
theorem CommandEnd.eq_raise {s t : State} {r : Response} {c : ErrCause} (h : CommandEnd s t)
    (hr : t.resp = some r) (hc : r.status = .error c) : t = s.raise c := by
  cases h with
  | raised c' =>
    obtain rfl := Option.some.inj hr
    obtain rfl : c' = c := Status.error.inj hc
    rfl
  | completed _ _ _ =>
    obtain rfl := Option.some.inj hr
    cases hc

/-- `raise` is the state that rules R212 and R216 write out field by field. -/
theorem State.raise_eq_raisedState (s : State) (c : ErrCause) : s.raise c = raisedState s (causeBit c) c := by
  cases c <;> rfl

/-! ### Illegal words (30_encoding.md rules R74, R75 and R89) -/

theorem fieldOpc_toNat (w : CommandWord) : (fieldOpc w).toNat = opcNat w := by
  have := w.isLt
  simp only [fieldOpc, opcNat, BitVec.extractLsb'_toNat, Nat.shiftRight_eq_div_pow]
  omega

theorem fieldArg_toNat (w : CommandWord) : (fieldArg w).toNat = argNat w := by
  simp [fieldArg, argNat]

theorem fieldPgenReserved_toNat (w : CommandWord) : (fieldPgenReserved w).toNat = argNat w / 16 := by
  simp only [fieldPgenReserved, argNat, BitVec.extractLsb'_toNat, Nat.shiftRight_eq_div_pow]
  omega

theorem fieldOpc_eq_iff {w : CommandWord} {k : Nat} (hk : k < 2 ^ 8) :
    fieldOpc w = BitVec.ofNat 8 k ↔ opcNat w = k := by
  rw [← BitVec.toNat_inj, fieldOpc_toNat, BitVec.toNat_ofNat, Nat.mod_eq_of_lt hk]

theorem fieldArg_eq_zero_iff {w : CommandWord} : fieldArg w = 0 ↔ argNat w = 0 := by
  rw [← BitVec.toNat_inj, fieldArg_toNat]
  rfl

/-- An illegal word takes no operand words (rule R77). -/
theorem operandWords_of_illegalWord {w : CommandWord} (hw : IllegalWord w) : operandWords w = 0 := by
  have hpseq : fieldOpc w ≠ 0x01#8 := fun h => by
    have := (fieldOpc_eq_iff (by decide)).mp h
    omega
  have hpush : ¬ (fieldOpc w = 0x05#8 ∧ fieldArg w = 0) := fun ⟨h, harg⟩ => by
    have := (fieldOpc_eq_iff (by decide)).mp h
    have := fieldArg_eq_zero_iff.mp harg
    omega
  rw [operandWords, if_neg hpseq, if_neg hpush]

/-- The opcodes whose argument is wholly reserved accept no illegal word (rule R75). -/
theorem decodeBare_of_illegalWord {w : CommandWord} {k : Nat} {i : Instr} (hw : IllegalWord w)
    (hopc : fieldOpc w = BitVec.ofNat 8 k) (hk : 3 ≤ k ∧ k ≤ 9) : decodeBare w i = .error .reservedArg := by
  have := (fieldOpc_eq_iff (by omega)).mp hopc
  have harg : fieldArg w ≠ 0 := fun h => by
    have := fieldArg_eq_zero_iff.mp h
    omega
  rw [decodeBare, if_neg harg]

/-- The decoder gives an illegal word one of its two reasons for `E_OPCODE` (rules R74 and R75). -/
theorem decode_illegalWord {w : CommandWord} (hw : IllegalWord w) :
    decode (.command w []) = .error .illegalOpcode ∨ decode (.command w []) = .error .reservedArg := by
  rw [decode, decodeCommand, operandWords_of_illegalWord hw, if_pos List.length_nil]
  unfold decodeOpcode
  split
  next h =>
    have := (fieldOpc_eq_iff (by decide)).mp h
    omega
  next h =>
    have := (fieldOpc_eq_iff (by decide)).mp h
    have hres : fieldPgenReserved w ≠ 0 := fun h0 => by
      have := congrArg BitVec.toNat h0
      simp only [fieldPgenReserved_toNat, BitVec.ofNat_eq_ofNat, BitVec.toNat_zero] at this
      omega
    exact .inr (if_neg hres)
  next h => exact .inr (decodeBare_of_illegalWord hw h (by decide))
  next h => exact .inr (decodeBare_of_illegalWord hw h (by decide))
  next => exact .inr rfl
  next h => exact .inr (decodeBare_of_illegalWord hw h (by decide))
  next h => exact .inr (decodeBare_of_illegalWord hw h (by decide))
  next h => exact .inr (decodeBare_of_illegalWord hw h (by decide))
  next h => exact .inr (decodeBare_of_illegalWord hw h (by decide))
  next => exact .inl rfl

/-- The engine answers an illegal word by raising `E_OPCODE`, in every state. -/
theorem step_of_illegalWord {s : State} {w : CommandWord} {rest : List Input} (hw : IllegalWord w)
    (h : s.input = .transaction (.command w []) :: rest) :
    step s = .next (({ s with input := rest } : State).raise .opcode) := by
  rcases decode_illegalWord hw with hd | hd <;>
    simp [step, fetch_of_transaction h, fetchTransaction, hd]

/-- Settles O26: a command ends by `done` or by `raise` on the state it started from, and an illegal word raises. -/
theorem raisingCommandChangesNothingElse : Obligations.RaisingCommandChangesNothingElse := by
  refine ⟨fun i s t r c hi h hr hc => ?_, fun s w rest hw h => ?_⟩
  · rw [(exec_commandEnd hi h).eq_raise hr hc, State.raise_eq_raisedState]
  · rw [step_of_illegalWord hw h, State.raise_eq_raisedState]

/-! ### The parameters (00_scope.md rule R8) -/

@[simp] theorem State.setRail_cfg (s : State) (n : RailName) (r : Option Rail) : (s.setRail n r).cfg = s.cfg := by
  cases n <;> rfl

/-- No micro-operation writes a parameter. -/
theorem micro_keeps_cfg {i : Instr} {s t : State} (hi : i.isCommand = false) (h : exec i s = .next t) :
    t.cfg = s.cfg := by
  cases i with
  | bsbCreate n len => obtain ⟨_, _, rfl⟩ := bsbCreate_next h; simp
  | bsbPush n b => obtain ⟨_, _, _, rfl⟩ := bsbPush_next h; simp
  | bsbCorr m n => obtain ⟨_, _, _, _, _, _, _, rfl⟩ := bsbCorr_next h; rfl
  | bsbClear n => obtain ⟨_, _, _, rfl⟩ := bsbClear_next h; simp
  | bsbDestroy n => obtain ⟨_, _, _, rfl⟩ := bsbDestroy_next h; simp
  | sgCreate m => obtain ⟨_, _, rfl⟩ := sgCreate_next h; rfl
  | sgReset => obtain ⟨_, _, rfl⟩ := sgReset_next h; rfl
  | sgNext => obtain ⟨_, _, rfl⟩ := sgNext_next h; rfl
  | sgLen => obtain ⟨_, _, rfl⟩ := sgLen_next h; rfl
  | sgDestroy => obtain ⟨_, _, rfl⟩ := sgDestroy_next h; rfl
  | _ => cases hi

theorem exec_keeps_cfg {i : Instr} {s t : State} (h : exec i s = .next t) : t.cfg = s.cfg := by
  cases hi : i.isCommand with
  | true => exact (exec_commandEnd hi h).cfg_eq
  | false => exact micro_keeps_cfg hi h

theorem step_keeps_cfg {s t : State} (h : step s = .next t) : t.cfg = s.cfg := by
  obtain ⟨_, rfl⟩ | ⟨_, _, rfl⟩ | ⟨_, _, _, _, _, rfl⟩ | ⟨_, _, _, _, _, h⟩ := step_next h
  · rfl
  · rfl
  · rfl
  · exact (exec_keeps_cfg h :)

/-- Settles O30: every instruction and every way a step can answer keeps the parameters. -/
theorem parametersNeverChange : Obligations.ParametersNeverChange := by
  refine ⟨⟨rfl, fun c => ?_⟩, fun _ _ _ => exec_keeps_cfg, fun _ _ => step_keeps_cfg⟩
  cases c <;> decide

/-! ### The decoded instruction and the codes -/

theorem step_of_decode {s : State} {tr : Transaction} {rest : List Input} {i : Instr}
    (h : s.input = .transaction tr :: rest) (hd : decode tr = .ok i) :
    step s = exec i { s with input := rest } := by
  simp [step, fetch_of_transaction h, fetchTransaction, hd]

/-- Settles O6. -/
theorem stepRunsTheDecodedInstruction : Obligations.StepRunsTheDecodedInstruction :=
  fun _ _ _ _ h hd _ => step_of_decode h hd

/-- Settles O28: the five tables of codes, each evaluated. -/
theorem codesAreAsTabulated : Obligations.CodesAreAsTabulated := by
  refine ⟨?statusCodes, ?errlogBits, ?lcCodes, ?pathCodes, ?classCodes⟩ <;> decide

end Sys2Proof.Machine

/-! ## The periods of the default generator table (41_generator.md rules R121 and R127)

The register of order m returns to its initial value after N = 2^m - 1 steps. An earlier return divides N, so it would
show at N / p for a prime p that divides N: that leaves a few distant registers to evaluate. A step is linear over the
bits, so a run of k steps is a matrix of twelve columns, and it is reached by about log k squarings. -/

namespace Sys2Proof.Machine

/-! ### The first return, from the prime divisors of the period -/

theorem sgAfter_eq_iterate (c : Config) (m k : Nat) : sgAfter c m k = (sgStep c m)^[k] (sgA c m) := by
  induction k with
  | zero => rfl
  | succ k ih => rw [Function.iterate_succ_apply', ← ih, sgAfter]

/-- A return after 2^m - 1 steps is the first one if no maximal proper divisor of 2^m - 1 is a return too. -/
theorem maximalPeriod_of_prime_divisors {c : Config} {m : Nat} {ps : List Nat} (hprime : ∀ p ∈ ps, p.Prime)
    (hprod : ps.prod = 2 ^ m - 1) (hreturn : sgAfter c m (2 ^ m - 1) = sgA c m)
    (hearly : ∀ p ∈ ps, sgAfter c m ((2 ^ m - 1) / p) ≠ sgA c m) : MaximalPeriod c m := by
  refine ⟨hreturn, fun k hpos hlt hk => ?_⟩
  simp only [sgAfter_eq_iterate] at hreturn hearly hk
  set N := 2 ^ m - 1
  set d := Nat.gcd k N
  have hperiod : Function.IsPeriodicPt (sgStep c m) d (sgA c m) := .gcd hk hreturn
  have hdk : d ≤ k := Nat.le_of_dvd hpos (Nat.gcd_dvd_left k N)
  obtain ⟨e, he⟩ : d ∣ N := Nat.gcd_dvd_right k N
  have hne : e ≠ 1 := by
    rintro rfl
    omega
  obtain ⟨p, hp, q, rfl⟩ := Nat.exists_prime_and_dvd hne
  have hN : N = p * (d * q) := he.trans (Nat.mul_left_comm d p q)
  have hmem : p ∈ ps :=
    mem_list_primes_of_dvd_prod hp.prime (fun r hr => (hprime r hr).prime) (hprod ▸ Dvd.intro _ hN.symm)
  refine hearly p hmem ?_
  rw [hN, Nat.mul_div_cancel_left _ hp.pos]
  exact hperiod.mul_const q

/-! ### A step is linear -/

/-- A map of registers that respects their sum modulo 2. -/
def XorLinear (f : BitVec 12 → BitVec 12) : Prop := ∀ u v, f (u ^^^ v) = f u ^^^ f v

theorem XorLinear.map_zero {f : BitVec 12 → BitVec 12} (hf : XorLinear f) : f 0 = 0 := by
  simpa using hf 0 0

theorem XorLinear.comp {f g : BitVec 12 → BitVec 12} (hf : XorLinear f) (hg : XorLinear g) : XorLinear (f ∘ g) :=
  fun u v => by simp only [Function.comp_apply, hg u v, hf (g u) (g v)]

theorem foldl_xor_getLsbD {n : Nat} (x y : BitVec n) (ks : List Nat) (p q : Bool) :
    ks.foldl (fun p k => xor p ((x ^^^ y).getLsbD k)) (xor p q) =
      xor (ks.foldl (fun p k => xor p (x.getLsbD k)) p) (ks.foldl (fun p k => xor p (y.getLsbD k)) q) := by
  induction ks generalizing p q with
  | nil => rfl
  | cons k ks ih =>
    simp only [List.foldl_cons, ← ih, BitVec.getLsbD_xor]
    rw [Bool.xor_assoc, Bool.xor_assoc, Bool.xor_left_comm q]

theorem parity_xor {n : Nat} (x y : BitVec n) : parity (x ^^^ y) = xor (parity x) (parity y) :=
  foldl_xor_getLsbD x y (List.range n) false false

theorem xor_and_distrib {n : Nat} (x y z : BitVec n) : (x ^^^ y) &&& z = (x &&& z) ^^^ (y &&& z) := by
  ext i hi
  simp [Bool.and_xor_distrib_right]

theorem sgFeedback_xor (c : Config) (m : Nat) (u v : BitVec 12) :
    sgFeedback c m (u ^^^ v) = xor (sgFeedback c m u) (sgFeedback c m v) := by
  simp only [sgFeedback, ← parity_xor, xor_and_distrib]

theorem sgStep_xorLinear (c : Config) (m : Nat) : XorLinear (sgStep c m) := by
  intro u v
  ext i hi
  cases i with
  | zero => simp [sgStep, sgFeedback_xor, Bool.and_xor_distrib_right]
  | succ i => simp [sgStep, Bool.and_xor_distrib_right]

/-! ### Linear maps by their columns -/

/-- The images of the twelve unit registers. -/
def columnsOf (f : BitVec 12 → BitVec 12) : List (BitVec 12) :=
  (List.range 12).map fun i => f (BitVec.twoPow 12 i)

/-- The sum modulo 2 of the columns that the low n bits of v select. -/
def combine (cols : List (BitVec 12)) (v : BitVec 12) : Nat → BitVec 12
  | 0 => 0
  | n + 1 => combine cols v n ^^^ if v.getLsbD n then cols.getD n 0 else 0

theorem setWidth_low_succ (v : BitVec 12) (n : Nat) :
    (v.setWidth (n + 1)).setWidth 12 =
      (v.setWidth n).setWidth 12 ^^^ if v.getLsbD n then BitVec.twoPow 12 n else 0 := by
  ext j hj
  obtain hlt | rfl | hgt := Nat.lt_trichotomy j n
  · cases v.getLsbD n <;> simp [hlt, hlt.ne, hj, Nat.lt_succ_of_lt hlt]
  · cases hbit : v.getLsbD j <;> simp [hj, hbit, ← BitVec.getLsbD_eq_getElem]
  · cases v.getLsbD n <;> simp [hgt.ne', hgt.le, Nat.succ_le_of_lt hgt]

theorem combine_columnsOf_low {f : BitVec 12 → BitVec 12} (hf : XorLinear f) (v : BitVec 12) {n : Nat}
    (hn : n ≤ 12) : combine (columnsOf f) v n = f ((v.setWidth n).setWidth 12) := by
  induction n with
  | zero => simpa [combine, BitVec.of_length_zero (x := v.setWidth 0)] using hf.map_zero.symm
  | succ n ih =>
    have hcol : (columnsOf f).getD n 0 = f (BitVec.twoPow 12 n) := by
      have : n < 12 := hn
      simp [columnsOf, List.getD_eq_getElem?_getD, this]
    rw [combine, ih (by omega), hcol, setWidth_low_succ, hf, apply_ite f, hf.map_zero]

theorem combine_columnsOf {f : BitVec 12 → BitVec 12} (hf : XorLinear f) (v : BitVec 12) :
    combine (columnsOf f) v 12 = f v := by
  simpa using combine_columnsOf_low hf v le_rfl

theorem columnsOf_comp {f : BitVec 12 → BitVec 12} (hf : XorLinear f) (g : BitVec 12 → BitVec 12) :
    columnsOf (f ∘ g) = (columnsOf g).map (combine (columnsOf f) · 12) := by
  simp only [combine_columnsOf hf]
  simp [columnsOf]

/-- The image of `v` under k steps of the map with columns `cols`, for k of at most `fuel` bits: the columns are
squared for each bit of k, and applied where the bit is 1. -/
def iterateBySquaring (cols : List (BitVec 12)) (v : BitVec 12) : Nat → Nat → BitVec 12
  | 0, _ => v
  | fuel + 1, k =>
    iterateBySquaring (cols.map (combine cols · 12)) (if k % 2 = 1 then combine cols v 12 else v) fuel (k / 2)

theorem iterateBySquaring_columnsOf {f : BitVec 12 → BitVec 12} (hf : XorLinear f) (v : BitVec 12) {fuel k : Nat}
    (hk : k < 2 ^ fuel) : iterateBySquaring (columnsOf f) v fuel k = f^[k] v := by
  induction fuel generalizing f v k with
  | zero =>
    obtain rfl : k = 0 := by omega
    rfl
  | succ fuel ih =>
    have hsquare : (f ∘ f)^[k / 2] = f^[2 * (k / 2)] := (Function.iterate_mul f 2 (k / 2)).symm
    rw [iterateBySquaring, ← columnsOf_comp hf, ih (hf.comp hf) _ (by omega), combine_columnsOf hf, hsquare]
    split
    next hodd => rw [← Function.iterate_succ_apply, Nat.succ_eq_add_one]; congr 2; omega
    next heven => congr 2; omega

/-- The register of order m after k steps, by squaring. -/
def sgAfterBySquaring (c : Config) (m k : Nat) : BitVec 12 :=
  iterateBySquaring (columnsOf (sgStep c m)) (sgA c m) m k

theorem sgAfterBySquaring_eq (c : Config) {m k : Nat} (hk : k < 2 ^ m) :
    sgAfterBySquaring c m k = sgAfter c m k := by
  rw [sgAfterBySquaring, iterateBySquaring_columnsOf (sgStep_xorLinear c m) _ hk, sgAfter_eq_iterate]

/-! ### The default table -/

/-- The prime factors, with multiplicity, of 2^m - 1, the period of order m. -/
def periodPrimes : Nat → List Nat
  | 2 => [3]
  | 3 => [7]
  | 4 => [3, 5]
  | 5 => [31]
  | 6 => [3, 3, 7]
  | 7 => [127]
  | 8 => [3, 5, 17]
  | 9 => [7, 73]
  | 10 => [3, 11, 31]
  | 11 => [23, 89]
  | 12 => [3, 3, 5, 7, 13]
  | _ => []

theorem periodPrimes_prime : ∀ m ∈ sgOrders, ∀ p ∈ periodPrimes m, p.Prime := by
  simp only [sgOrders, periodPrimes, List.forall_mem_cons]
  norm_num

theorem periodPrimes_prod : ∀ m ∈ sgOrders, (periodPrimes m).prod = 2 ^ m - 1 := by decide

/-- The registers of the default table that decide its periods, evaluated by squaring. -/
theorem default_returns : ∀ m ∈ sgOrders,
    sgAfterBySquaring Config.default m (2 ^ m - 1) = sgA Config.default m ∧
    ∀ p ∈ periodPrimes m, sgAfterBySquaring Config.default m ((2 ^ m - 1) / p) ≠ sgA Config.default m := by
  decide +kernel

/-- Settles O49, by the first-return criterion at the prime divisors of each period. -/
theorem defaultTableHasMaximalPeriods : Obligations.DefaultTableHasMaximalPeriods := by
  intro m hm
  obtain ⟨hreturn, hearly⟩ := default_returns m hm
  have hlt : 2 ^ m - 1 < 2 ^ m := Nat.sub_lt (Nat.two_pow_pos m) Nat.one_pos
  refine maximalPeriod_of_prime_divisors (periodPrimes_prime m hm) (periodPrimes_prod m hm) ?_ fun p hp => ?_
  · rwa [sgAfterBySquaring_eq _ hlt] at hreturn
  · have := hearly p hp
    rwa [sgAfterBySquaring_eq _ ((Nat.div_le_self _ p).trans_lt hlt)] at this

end Sys2Proof.Machine

/-! ## State: how commands end, where they answer, and the invariants every step keeps

A command that answers has raised or completed; at a command boundary it always answers; and what it writes keeps the
invariant of rule R39. The invariant of the units is kept rail by rail, micro-operations included. -/

namespace Sys2Proof.Machine

/-! ### What a completed command leaves alone -/

/-- What every command that completes keeps, and that it answers `OK`. -/
structure CompletesFrom (s t : State) : Prop where
  errlog : t.errlog = s.errlog
  input : t.input = s.input
  sg : t.sg = s.sg
  answersOk : ∃ r, t.resp = some r ∧ r.status = .ok

theorem CompletesFrom.of_done {s u : State} (i q : BitVec 32) (herr : u.errlog = s.errlog)
    (hin : u.input = s.input) (hsg : u.sg = s.sg) : CompletesFrom s (u.done i q) :=
  ⟨herr, hin, hsg, _, rfl, rfl⟩

/-- A command that answers has raised a cause, or it has completed. -/
theorem command_raises_or_completes {i : Instr} {s t : State} (hi : i.isCommand = true)
    (h : exec i s = .next t) : (∃ c, t = s.raise c) ∨ CompletesFrom s t := by
  cases i with
  | pseq n burst =>
    obtain ⟨_, ⟨_, rfl⟩ | ⟨_, _, rfl⟩ | ⟨_, _, rfl⟩ | ⟨_, _, _, rfl⟩⟩ := pseq_next h
    exacts [.inl ⟨_, rfl⟩, .inl ⟨_, rfl⟩, .inl ⟨_, rfl⟩, .inr (.of_done 0 0 rfl rfl rfl)]
  | pgen sel =>
    obtain ⟨_, rfl⟩ | ⟨_, _, rfl⟩ | ⟨_, _, _, _, rfl⟩ := pgen_next h
    exacts [.inl ⟨_, rfl⟩, .inl ⟨_, rfl⟩, .inr (.of_done 0 0 rfl rfl rfl)]
  | bind =>
    obtain ⟨_, rfl⟩ | ⟨_, _, _, rfl⟩ := bind_next h
    exacts [.inl ⟨_, rfl⟩, .inr (.of_done 0 0 rfl rfl rfl)]
  | reset =>
    obtain ⟨_, rfl⟩ | ⟨_, _, _, _, rfl⟩ := reset_next h
    exacts [.inl ⟨_, rfl⟩, .inr (.of_done 0 0 rfl rfl rfl)]
  | push op =>
    obtain ⟨_, rfl⟩ | ⟨_, _, _, _, _, _, _, _, _, rfl⟩ := push_next h
    exacts [.inl ⟨_, rfl⟩, .inr (.of_done _ _ rfl rfl rfl)]
  | destroy =>
    obtain ⟨_, rfl⟩ | ⟨_, _, _, ⟨_, rfl⟩ | ⟨_, _, _, rfl⟩⟩ := destroy_next h
    exacts [.inl ⟨_, rfl⟩, .inr (.of_done 0 0 rfl rfl rfl), .inr (.of_done 0 0 rfl rfl rfl)]
  | info =>
    obtain rfl := info_next h
    exact .inr (.of_done _ _ rfl rfl rfl)
  | rdlast =>
    obtain ⟨_, rfl⟩ | ⟨_, _, _, rfl⟩ := rdlast_next h
    exacts [.inl ⟨_, rfl⟩, .inr (.of_done _ _ rfl rfl rfl)]
  | pdestroy =>
    obtain ⟨_, rfl⟩ | ⟨_, _, _, rfl⟩ := pdestroy_next h
    exacts [.inl ⟨_, rfl⟩, .inr (.of_done 0 0 rfl rfl rfl)]
  | _ => cases hi

theorem command_keeps_input {i : Instr} {s t : State} (hi : i.isCommand = true) (h : exec i s = .next t) :
    t.input = s.input := by
  obtain ⟨_, rfl⟩ | hdone := command_raises_or_completes hi h
  exacts [rfl, hdone.input]

theorem command_keeps_sg {i : Instr} {s t : State} (hi : i.isCommand = true) (h : exec i s = .next t) :
    t.sg = s.sg := by
  obtain ⟨_, rfl⟩ | hdone := command_raises_or_completes hi h
  exacts [rfl, hdone.sg]

/-- Every command that answers has a response on the port (60_exceptions.md rule R222). -/
theorem command_has_response {i : Instr} {s t : State} (hi : i.isCommand = true) (h : exec i s = .next t) :
    ∃ r, t.resp = some r := by
  obtain ⟨_, rfl⟩ | hdone := command_raises_or_completes hi h
  · exact ⟨_, rfl⟩
  · exact hdone.answersOk.imp fun _ hr => hr.1

/-! ### The error log (10_state.md rule R25) -/

@[simp] theorem State.setRail_errlog (s : State) (n : RailName) (r : Option Rail) :
    (s.setRail n r).errlog = s.errlog := by
  cases n <;> rfl

theorem micro_keeps_errlog {i : Instr} {s t : State} (hi : i.isCommand = false) (h : exec i s = .next t) :
    t.errlog = s.errlog := by
  cases i with
  | bsbCreate n len => obtain ⟨_, _, rfl⟩ := bsbCreate_next h; simp
  | bsbPush n b => obtain ⟨_, _, _, rfl⟩ := bsbPush_next h; simp
  | bsbCorr m n => obtain ⟨_, _, _, _, _, _, _, rfl⟩ := bsbCorr_next h; rfl
  | bsbClear n => obtain ⟨_, _, _, rfl⟩ := bsbClear_next h; simp
  | bsbDestroy n => obtain ⟨_, _, _, rfl⟩ := bsbDestroy_next h; simp
  | sgCreate m => obtain ⟨_, _, rfl⟩ := sgCreate_next h; rfl
  | sgReset => obtain ⟨_, _, rfl⟩ := sgReset_next h; rfl
  | sgNext => obtain ⟨_, _, rfl⟩ := sgNext_next h; rfl
  | sgLen => obtain ⟨_, _, rfl⟩ := sgLen_next h; rfl
  | sgDestroy => obtain ⟨_, _, rfl⟩ := sgDestroy_next h; rfl
  | _ => cases hi

theorem and_setErr (log : BitVec 5) (c : ErrCause) : log &&& setErr log c = log := by
  ext k hk
  simp only [setErr, BitVec.getElem_and, BitVec.getElem_or]
  exact inf_sup_self

theorem setErr_getLsbD_causeBit (log : BitVec 5) (c : ErrCause) : (setErr log c).getLsbD (causeBit c) = true := by
  cases c <;> simp [setErr, errBit, causeBit]

theorem setErr_setErr (log : BitVec 5) (c : ErrCause) : setErr (setErr log c) c = setErr log c := by
  rw [setErr, setErr, BitVec.or_assoc, BitVec.or_self]

/-- Raising the same cause twice in a row is raising it once. -/
theorem State.raise_raise (s : State) (c : ErrCause) : (s.raise c).raise c = s.raise c := by
  simp only [State.raise, setErr_setErr]

/-- No instruction clears a bit of the error log. -/
theorem exec_errlog_sticky {i : Instr} {s t : State} (h : exec i s = .next t) :
    s.errlog &&& t.errlog = s.errlog := by
  cases hi : i.isCommand with
  | false => rw [micro_keeps_errlog hi h, BitVec.and_self]
  | true =>
    obtain ⟨c, rfl⟩ | hdone := command_raises_or_completes hi h
    · exact and_setErr _ c
    · rw [hdone.errlog, BitVec.and_self]

theorem step_errlog_sticky {s t : State} (h : step s = .next t) (hreset : ∀ rest, s.input ≠ .hreset :: rest) :
    s.errlog &&& t.errlog = s.errlog := by
  obtain ⟨_, rfl⟩ | ⟨rest, hin, _⟩ | ⟨_, _, _, _, _, rfl⟩ | ⟨_, _, _, _, _, h⟩ := step_next h
  · exact BitVec.and_self
  · exact absurd hin (hreset rest)
  · exact and_setErr _ _
  · exact (exec_errlog_sticky h :)

/-- Settles O27: nothing but HRESET clears a bit, `raise` sets the bit of its cause, and HRESET clears the log. -/
theorem errlogIsSticky : Obligations.ErrlogIsSticky := by
  refine ⟨fun s t h hreset => step_errlog_sticky h hreset, fun i s t r c hi h hr hc => ?_,
    fun s w rest hw h => ?_, fun s t rest hin h => ?_⟩
  · rw [(exec_commandEnd hi h).eq_raise hr hc]
    exact setErr_getLsbD_causeBit _ c
  · exact ⟨_, step_of_illegalWord hw h, setErr_getLsbD_causeBit _ .opcode⟩
  · rw [step_of_hreset hin] at h
    cases h
    rfl

/-! ### Live rails -/

@[simp] theorem liveWith_some {r : Rail} {n : Nat} : LiveWith (some r) n ↔ r.length = n := by
  simp [LiveWith]

theorem LiveWith.map_length {f : Rail → Rail} {p : Option Rail} {n : Nat} (h : LiveWith p n)
    (hf : ∀ r, (f r).length = r.length) : LiveWith (p.map f) n := by
  obtain ⟨r, rfl, hr⟩ := h
  exact ⟨f r, rfl, (hf r).trans hr⟩

theorem LiveIff.liveWith {b : Bool} {p : Option Rail} {n : Nat} (h : LiveIff b p n) (hb : b = true) :
    LiveWith p n := by
  rwa [LiveIff, if_pos hb] at h

theorem LiveIff.eq_none {b : Bool} {p : Option Rail} {n : Nat} (h : LiveIff b p n) (hb : b = false) :
    p = none := by
  simpa [LiveIff, hb] using h

/-- Where the rail exists it is written, and where it does not its empty place is kept. -/
theorem liveIff_write {b : Bool} {p : Option Rail} {r : Rail} {n : Nat} (hp : b = false → p = none)
    (hr : r.length = n) : LiveIff b (if b = true then some r else p) n := by
  cases b with
  | false => exact hp rfl
  | true => exact ⟨r, rfl, hr⟩

theorem LiveIff.map_length {f : Rail → Rail} {b : Bool} {p : Option Rail} {n : Nat} (h : LiveIff b p n)
    (hf : ∀ r, (f r).length = r.length) : LiveIff b (if b = true then p.map f else p) n := by
  cases b with
  | false => exact h
  | true => exact LiveWith.map_length h hf

theorem LiveIff.released {b : Bool} {p : Option Rail} {n : Nat} (h : LiveIff b p n) :
    (if b = true then none else p) = none := by
  cases b with
  | false => exact h
  | true => rfl

/-! ### The size of the numerators (44_correlator.md rule R186) -/

theorem corr_natAbs_le_and_parity : ∀ a b : Rail, a.length = b.length →
    (corr a b).natAbs ≤ a.length ∧ corr a b % 2 = (a.length : Int) % 2
  | [], [], _ => ⟨le_rfl, rfl⟩
  | x :: a, y :: b, h => by
    have ih := corr_natAbs_le_and_parity a b (by simpa using h)
    simp only [corr, List.length_cons]
    split <;> omega

/-- One element of a complex correlation adds at most 2 to the two components together. -/
theorem complex_element_bound : ∀ a b x y : Bool,
    (((if a = x then 1 else -1) - (if b = y then 1 else -1) : Int)).natAbs +
      (((if a = y then 1 else -1) + (if b = x then 1 else -1) : Int)).natAbs ≤ 2 := by
  decide

theorem corr_complex_bound : ∀ ri rq xi xq : Rail, ri.length = rq.length → ri.length = xi.length →
    ri.length = xq.length →
    (corr ri xi - corr rq xq).natAbs + (corr ri xq + corr rq xi).natAbs ≤ 2 * ri.length
  | [], [], [], [], _, _, _ => le_rfl
  | a :: ri, b :: rq, x :: xi, y :: xq, hq, hx, hy => by
    have ih := corr_complex_bound ri rq xi xq (by simpa using hq) (by simpa using hx) (by simpa using hy)
    have helement := complex_element_bound a b x y
    simp only [corr, List.length_cons]
    omega

theorem bsbCorr_liveWith {p q : Option Rail} {n : Nat} (hp : LiveWith p n) (hq : LiveWith q n) :
    ∃ z, bsbCorr p q = .ok z := by
  obtain ⟨a, rfl, ha⟩ := hp
  obtain ⟨b, rfl, hb⟩ := hq
  exact ⟨_, bsbCorr_eq_ok.mpr ⟨a, b, rfl, rfl, ha.trans hb.symm, rfl⟩⟩

theorem bsbCorr_bound {p q : Option Rail} {n : Nat} {z : Int} (hp : LiveWith p n) (h : bsbCorr p q = .ok z) :
    z.natAbs ≤ n ∧ z % 2 = (n : Int) % 2 := by
  obtain ⟨a, b, rfl, rfl, hlen, rfl⟩ := bsbCorr_eq_ok.mp h
  obtain rfl := liveWith_some.mp hp
  exact corr_natAbs_le_and_parity a b hlen

/-- On live rails of one length the accumulator answers. -/
theorem accumulate_answers {cls : CorrClass} {refI refQ rxI rxQ : Option Rail} {n : Nat}
    (hri : LiveWith refI n) (hrq : LiveIff (patternComplex cls) refQ n) (hxi : LiveWith rxI n)
    (hxq : LiveIff (symbolComplex cls) rxQ n) : ∃ z, accumulate cls refI refQ rxI rxQ = .ok z := by
  obtain ⟨a, ha⟩ := bsbCorr_liveWith hri hxi
  cases cls with
  | rr => exact ⟨(a, 0), accumulate_eq_ok.mpr ⟨ha, rfl⟩⟩
  | cr =>
    obtain ⟨b, hb⟩ := bsbCorr_liveWith hri (hxq.liveWith rfl)
    exact ⟨(a, b), accumulate_eq_ok.mpr ⟨ha, hb⟩⟩
  | cc =>
    have hrq := hrq.liveWith rfl
    have hxq := hxq.liveWith rfl
    obtain ⟨b, hb⟩ := bsbCorr_liveWith hri hxq
    obtain ⟨c, hc⟩ := bsbCorr_liveWith hrq hxi
    obtain ⟨d, hd⟩ := bsbCorr_liveWith hrq hxq
    exact ⟨(a - d, b + c), accumulate_eq_ok.mpr ⟨a, b, c, d, ha, hb, hc, hd, rfl, rfl⟩⟩

theorem accumulate_numeratorBound {cls : CorrClass} {refI refQ rxI rxQ : Option Rail} {n : Nat} {i q : Int}
    (hri : LiveWith refI n) (hrq : LiveIff (patternComplex cls) refQ n)
    (h : accumulate cls refI refQ rxI rxQ = .ok (i, q)) : NumeratorBound cls n i q := by
  rw [accumulate_eq_ok] at h
  cases cls with
  | rr =>
    obtain ⟨hi, rfl⟩ := h
    obtain ⟨hle, hpar⟩ := bsbCorr_bound hri hi
    exact ⟨hle, hpar, rfl⟩
  | cr =>
    obtain ⟨hi, hq⟩ := h
    obtain ⟨hile, hipar⟩ := bsbCorr_bound hri hi
    obtain ⟨hqle, hqpar⟩ := bsbCorr_bound hri hq
    exact ⟨hile, hipar, hqle, hqpar⟩
  | cc =>
    obtain ⟨a, b, c, d, ha, hb, hc, hd, rfl, rfl⟩ := h
    have hrq := hrq.liveWith rfl
    obtain ⟨_, hapar⟩ := bsbCorr_bound hri ha
    obtain ⟨_, hbpar⟩ := bsbCorr_bound hri hb
    obtain ⟨_, hcpar⟩ := bsbCorr_bound hrq hc
    obtain ⟨_, hdpar⟩ := bsbCorr_bound hrq hd
    refine ⟨by omega, by omega, ?_⟩
    obtain ⟨ri, xi, rfl, rfl, hlen, rfl⟩ := bsbCorr_eq_ok.mp ha
    obtain ⟨rq, xq, rfl, rfl, hlen', rfl⟩ := bsbCorr_eq_ok.mp hd
    obtain ⟨_, _, hri', hxq', hlen'', rfl⟩ := bsbCorr_eq_ok.mp hb
    obtain ⟨_, _, hrq', hxi', _, rfl⟩ := bsbCorr_eq_ok.mp hc
    cases hri'; cases hxq'; cases hrq'; cases hxi'
    obtain rfl := liveWith_some.mp hri
    exact corr_complex_bound ri rq xi xq (by omega) hlen hlen''

theorem NumeratorBound.natAbs_le {cls : CorrClass} {n : Nat} {i q : Int} (h : NumeratorBound cls n i q) :
    i.natAbs ≤ 2 * n ∧ q.natAbs ≤ 2 * n := by
  cases cls <;> simp only [NumeratorBound] at h <;> omega

/-- The cache's 26 bits hold every numerator over a pattern of at most 2^24 - 1 elements. -/
theorem NumeratorBound.toInt_ofInt {cls : CorrClass} {n : Nat} {i q : Int} (h : NumeratorBound cls n i q)
    (hn : n < 2 ^ 24) :
    (BitVec.ofInt 26 i).toInt = i ∧ (BitVec.ofInt 26 q).toInt = q := by
  obtain ⟨hi, hq⟩ := h.natAbs_le
  exact ⟨BitVec.toInt_ofInt_eq_self (by decide) (by omega) (by omega),
    BitVec.toInt_ofInt_eq_self (by decide) (by omega) (by omega)⟩

/-! ### Where a body of micro-operations answers -/

theorem except_bind_answers {α β : Type} {x : Except Refusal α} {f : α → Except Refusal β}
    (hx : ∃ a, x = .ok a) (hf : ∀ a, x = .ok a → ∃ b, f a = .ok b) : ∃ b, (x >>= f) = .ok b := by
  obtain ⟨a, ha⟩ := hx
  obtain ⟨b, hb⟩ := hf a ha
  exact ⟨b, except_bind_eq_ok.mpr ⟨a, ha, hb⟩⟩

theorem except_map_answers {α β : Type} {f : α → β} {x : Except Refusal α} (hx : ∃ a, x = .ok a) :
    ∃ b, (f <$> x) = .ok b := by
  obtain ⟨a, ha⟩ := hx
  exact ⟨f a, except_map_eq_ok.mpr ⟨a, ha, rfl⟩⟩

theorem toOutcome_answers {x : Except Refusal State} (hx : ∃ t, x = .ok t) : ∃ t, toOutcome x = .next t := by
  obtain ⟨t, rfl⟩ := hx
  exact ⟨t, rfl⟩

theorem inLifecycle_answers {l : Lifecycle} {s : State} {body : Except Refusal State}
    (hbody : s.lc = l → ∃ t, body = .ok t) : ∃ t, inLifecycle l s body = .next t := by
  by_cases hl : s.lc = l
  · rw [inLifecycle_of_eq hl]
    exact toOutcome_answers (hbody hl)
  · exact ⟨_, inLifecycle_of_ne hl⟩

theorem ifExists_answers {b : Bool} {p : Option Rail} {op : Except Refusal (Option Rail)}
    (hop : b = true → ∃ q, op = .ok q) : ∃ q, ifExists b p op = .ok q := by
  cases b with
  | false => exact ⟨p, rfl⟩
  | true => exact hop rfl

theorem bsbCreate_answers {nmax len : Nat} (h : 1 ≤ len ∧ len ≤ nmax) : ∃ r, bsbCreate nmax len = .ok r :=
  ⟨_, bsbCreate_eq_ok.mpr ⟨h, rfl⟩⟩

theorem railOf_answers {nmax : Nat} {bits : List Bool} (h : 1 ≤ bits.length ∧ bits.length ≤ nmax) :
    ∃ r, railOf nmax bits = .ok r :=
  ⟨_, railOf_eq_ok.mpr ⟨h, rfl⟩⟩

theorem LiveWith.bsbPush_answers {p : Option Rail} {n : Nat} (h : LiveWith p n) (b : Bool) :
    ∃ r, bsbPush p b = .ok r := by
  obtain ⟨x, rfl, _⟩ := h
  exact ⟨_, rfl⟩

theorem LiveWith.bsbClear_answers {p : Option Rail} {n : Nat} (h : LiveWith p n) :
    ∃ r, bsbClear p = .ok r := by
  obtain ⟨x, rfl, _⟩ := h
  exact ⟨_, rfl⟩

theorem LiveWith.bsbDestroy_answers {p : Option Rail} {n : Nat} (h : LiveWith p n) :
    ∃ q, bsbDestroy p = .ok q := by
  obtain ⟨x, rfl, _⟩ := h
  exact ⟨_, rfl⟩

/-- A push writes a live rail of the same length back. -/
theorem bsbPush_liveWith {p : Option Rail} {b : Bool} {r : Rail} {n : Nat} (h : bsbPush p b = .ok r)
    (hp : LiveWith p n) : LiveWith (some r) n := by
  obtain ⟨x, rfl, rfl⟩ := bsbPush_eq_ok.mp h
  simpa using hp

theorem ifExists_bsbPush_liveIff {e b : Bool} {p q : Option Rail} {n : Nat}
    (h : ifExists e p (some <$> bsbPush p b) = .ok q) (hp : LiveIff e p n) : LiveIff e q n := by
  cases e with
  | false =>
    obtain rfl : p = q := Except.ok.inj h
    exact hp
  | true =>
    obtain ⟨r, hr, rfl⟩ := except_map_eq_ok.mp h
    exact bsbPush_liveWith hr hp

/-! ### Every command answers at a command boundary (60_exceptions.md rule R222) -/

theorem pseq_answers {s : State} {n : BitVec 24} {burst : List OpWord} (hlen : burst.length = n.toNat) :
    ∃ t, exec (.pseq n burst) s = .next t := by
  simp only [exec, execPseq, if_neg (not_not_intro hlen)]
  split; · exact ⟨_, rfl⟩
  split; · exact ⟨_, rfl⟩
  split; · exact ⟨_, rfl⟩
  have hbits : ∀ f : OpWord → Bool, 1 ≤ (burst.map f).length ∧ (burst.map f).length ≤ s.cfg.nmax := by
    intro f
    rw [List.length_map]
    omega
  exact toOutcome_answers <|
    except_bind_answers (railOf_answers (hbits _)) fun _ _ =>
    except_bind_answers (ifExists_answers fun _ => except_map_answers (railOf_answers (hbits _))) fun _ _ =>
    ⟨_, rfl⟩

theorem two_pow_order_le {m : Nat} (h : 2 ≤ m ∧ m ≤ 12) : 3 ≤ 2 ^ m - 1 ∧ 2 ^ m - 1 ≤ 4095 := by
  have hlow : 2 ^ 2 ≤ 2 ^ m := Nat.pow_le_pow_right (by decide) h.1
  have hhigh : 2 ^ m ≤ 2 ^ 12 := Nat.pow_le_pow_right (by decide) h.2
  omega

theorem pgen_answers {s : State} {sel : BitVec 4} (hsg : s.sg = none) (hmax : 4095 ≤ s.cfg.nmax) :
    ∃ t, exec (.pgen sel) s = .next t := by
  simp only [exec, execPgen]
  split; · exact ⟨_, rfl⟩
  split; · exact ⟨_, rfl⟩
  rename_i m hm
  obtain ⟨hsel, rfl⟩ := selLookup_eq_some.mp hm
  have hm : 2 ≤ sel.toNat + 2 ∧ sel.toNat + 2 ≤ 12 := by omega
  have hbits : ∀ g : SgState, g.m = BitVec.ofNat 4 (sel.toNat + 2) →
      1 ≤ (sgBits s.cfg g.m.toNat (sgLen g)).length ∧
        (sgBits s.cfg g.m.toNat (sgLen g)).length ≤ s.cfg.nmax := by
    intro g hg
    have hgm : g.m.toNat = sel.toNat + 2 := by rw [hg, BitVec.toNat_ofNat]; omega
    have := two_pow_order_le hm
    rw [sgBits_length, sgLen, hgm]
    omega
  refine toOutcome_answers <|
    except_bind_answers ⟨_, sgCreate_eq_ok.mpr ⟨hsg, hm, rfl⟩⟩ fun g hg => ?_
  obtain ⟨_, _, rfl⟩ := sgCreate_eq_ok.mp hg
  refine except_bind_answers (railOf_answers ?_) fun _ _ =>
    except_bind_answers (ifExists_answers fun _ => except_map_answers (railOf_answers ?_)) fun _ _ => ⟨_, rfl⟩
  · rw [sgDrain_sgReset]
    exact hbits _ rfl
  · rw [sgDrain_sgReset, sgDrain_m, sgReset_m]
    exact hbits _ rfl

theorem bind_answers {s : State} (h : AtBoundary s) : ∃ t, exec .bind s = .next t :=
  inLifecycle_answers fun hl =>
    have hcreate := bsbCreate_answers (h.patternIsLive (by simp [hl])).1
    except_bind_answers hcreate fun _ _ =>
    except_bind_answers (ifExists_answers fun _ => except_map_answers hcreate) fun _ _ => ⟨_, rfl⟩

theorem reset_answers {s : State} (h : AtBoundary s) : ∃ t, exec .reset s = .next t :=
  inLifecycle_answers fun hl =>
    have ⟨hxi, hxq⟩ := h.boundHasWindow hl
    except_bind_answers hxi.bsbClear_answers fun _ _ =>
    except_bind_answers (ifExists_answers fun hc => except_map_answers (hxq.liveWith hc).bsbClear_answers)
      fun _ _ => ⟨_, rfl⟩

theorem push_answers {s : State} {op : OpWord} (h : AtBoundary s) : ∃ t, exec (.push op) s = .next t :=
  inLifecycle_answers fun hl =>
    have ⟨hxi, hxq⟩ := h.boundHasWindow hl
    have ⟨_, hri, hrq⟩ := h.patternIsLive (by simp [hl])
    except_bind_answers (hxi.bsbPush_answers _) fun _ hxi' =>
    except_bind_answers (ifExists_answers fun hc => except_map_answers ((hxq.liveWith hc).bsbPush_answers _))
      fun _ hxq' =>
    except_bind_answers
      (accumulate_answers hri hrq (bsbPush_liveWith hxi' hxi) (ifExists_bsbPush_liveIff hxq' hxq))
      fun _ _ => ⟨_, rfl⟩

theorem destroy_answers {s : State} (h : AtBoundary s) : ∃ t, exec .destroy s = .next t := by
  refine inLifecycle_answers fun hl => ?_
  obtain ⟨hxi, hxq⟩ := h.boundHasWindow hl
  obtain ⟨_, hri, hrq⟩ := h.patternIsLive (by simp [hl])
  refine except_bind_answers hxi.bsbDestroy_answers fun _ _ =>
    except_bind_answers (ifExists_answers fun hc => (hxq.liveWith hc).bsbDestroy_answers) fun _ _ => ?_
  cases s.path with
  | explicit => exact ⟨_, rfl⟩
  | generator =>
    exact except_bind_answers hri.bsbDestroy_answers fun _ _ =>
      except_bind_answers (ifExists_answers fun hc => (hrq.liveWith hc).bsbDestroy_answers) fun _ _ => ⟨_, rfl⟩

theorem rdlast_answers (s : State) : ∃ t, exec .rdlast s = .next t := by
  refine inLifecycle_answers fun _ => ?_
  cases s.last with
  | none => exact ⟨_, rfl⟩
  | some v => exact ⟨_, rfl⟩

theorem pdestroy_answers {s : State} (h : AtBoundary s) : ∃ t, exec .pdestroy s = .next t :=
  inLifecycle_answers fun hl =>
    have ⟨_, hri, hrq⟩ := h.patternIsLive (by simp [hl])
    except_bind_answers hri.bsbDestroy_answers fun _ _ =>
    except_bind_answers (ifExists_answers fun hc => (hrq.liveWith hc).bsbDestroy_answers) fun _ _ => ⟨_, rfl⟩

theorem command_answers {s : State} {i : Instr} (hcfg : s.cfg.Wf) (h : AtBoundary s) (hi : i.isCommand = true)
    (hwf : i.wf = true) : ∃ t, exec i s = .next t := by
  cases i with
  | pseq n burst => exact pseq_answers (by simpa [Instr.wf] using hwf)
  | pgen sel => exact pgen_answers h.generatorIsDead hcfg.1.1
  | bind => exact bind_answers h
  | reset => exact reset_answers h
  | push op => exact push_answers h
  | destroy => exact destroy_answers h
  | info => exact ⟨_, rfl⟩
  | rdlast => exact rdlast_answers s
  | pdestroy => exact pdestroy_answers h
  | _ => cases hi

/-- Settles O53: at a command boundary every operation a command issues is within its precondition. -/
theorem everyHostCommandCompletes : Obligations.EveryHostCommandCompletes := by
  intro s i h hi hwf
  obtain ⟨t, ht⟩ := command_answers h.config h.boundary hi hwf
  obtain ⟨r, hr⟩ := command_has_response hi ht
  exact ⟨t, r, ht, hr⟩

/-! ### The lifecycle table (10_state.md rule R36) -/

/-- A command outside the state it needs raises `E_STATE`. -/
theorem eq_raise_of_ne_neededState {i : Instr} {s t : State} {l : Lifecycle} (h : exec i s = .next t)
    (hneed : neededState i = some l) (hl : s.lc ≠ l) : t = s.raise .state := by
  cases i with
  | pseq n burst =>
    cases hneed
    obtain ⟨_, ⟨_, rfl⟩ | ⟨he, _⟩ | ⟨he, _⟩ | ⟨he, _⟩⟩ := pseq_next h
    exacts [rfl, absurd he hl, absurd he hl, absurd he hl]
  | pgen sel =>
    cases hneed
    obtain ⟨_, rfl⟩ | ⟨he, _⟩ | ⟨he, _⟩ := pgen_next h
    exacts [rfl, absurd he hl, absurd he hl]
  | bind =>
    cases hneed
    obtain ⟨_, rfl⟩ | ⟨he, _⟩ := bind_next h
    exacts [rfl, absurd he hl]
  | reset =>
    cases hneed
    obtain ⟨_, rfl⟩ | ⟨_, he, _⟩ := reset_next h
    exacts [rfl, absurd he hl]
  | push op =>
    cases hneed
    obtain ⟨_, rfl⟩ | ⟨_, _, _, _, he, _⟩ := push_next h
    exacts [rfl, absurd he hl]
  | destroy =>
    cases hneed
    obtain ⟨_, rfl⟩ | ⟨he, _⟩ := destroy_next h
    exacts [rfl, absurd he hl]
  | rdlast =>
    cases hneed
    obtain ⟨_, rfl⟩ | ⟨_, he, _⟩ := rdlast_next h
    exacts [rfl, absurd he hl]
  | pdestroy =>
    cases hneed
    obtain ⟨_, rfl⟩ | ⟨he, _⟩ := pdestroy_next h
    exacts [rfl, absurd he hl]
  | _ => cases hneed

/-- A command in the state it needs, with valid operands, completes and leaves the state of the table. -/
theorem completes_of_neededState {i : Instr} {s t : State} (hi : i.isCommand = true) (h : exec i s = .next t)
    (hneed : ∀ l, neededState i = some l → s.lc = l) (hvalid : operandsValid s i) :
    (∃ r, t.resp = some r ∧ r.status = .ok) ∧ t.lc = lifecycleAfter s i := by
  cases i with
  | pseq n burst =>
    have hpos : 1 ≤ n.toNat := hvalid.1
    have hmax : n.toNat ≤ s.cfg.nmax := hvalid.2
    obtain ⟨_, ⟨hl, _⟩ | ⟨_, hzero, _⟩ | ⟨_, hlong, _⟩ | ⟨_, _, _, rfl⟩⟩ := pseq_next h
    · exact absurd (hneed _ rfl) hl
    · omega
    · omega
    · exact ⟨⟨_, rfl, rfl⟩, rfl⟩
  | pgen sel =>
    obtain ⟨hl, _⟩ | ⟨_, hsel, _⟩ | ⟨_, _, _, _, rfl⟩ := pgen_next h
    · exact absurd (hneed _ rfl) hl
    · exact absurd hvalid (Nat.not_le_of_gt hsel)
    · exact ⟨⟨_, rfl, rfl⟩, rfl⟩
  | bind =>
    obtain ⟨hl, _⟩ | ⟨_, _, _, rfl⟩ := bind_next h
    · exact absurd (hneed _ rfl) hl
    · exact ⟨⟨_, rfl, rfl⟩, rfl⟩
  | reset =>
    obtain ⟨hl, _⟩ | ⟨_, hl, _, _, rfl⟩ := reset_next h
    · exact absurd (hneed _ rfl) hl
    · exact ⟨⟨_, rfl, rfl⟩, hl⟩
  | push op =>
    obtain ⟨hl, _⟩ | ⟨_, _, _, _, hl, _, _, _, _, rfl⟩ := push_next h
    · exact absurd (hneed _ rfl) hl
    · exact ⟨⟨_, rfl, rfl⟩, hl⟩
  | destroy =>
    obtain ⟨hl, _⟩ | ⟨_, _, _, ⟨hp, rfl⟩ | ⟨hp, _, _, rfl⟩⟩ := destroy_next h
    · exact absurd (hneed _ rfl) hl
    · exact ⟨⟨_, rfl, rfl⟩, by simp [lifecycleAfter, hp]⟩
    · exact ⟨⟨_, rfl, rfl⟩, by simp [lifecycleAfter, hp]⟩
  | info =>
    obtain rfl := info_next h
    exact ⟨⟨_, rfl, rfl⟩, rfl⟩
  | rdlast =>
    obtain ⟨hl | hlast, _⟩ | ⟨_, hl, _, rfl⟩ := rdlast_next h
    · exact absurd (hneed _ rfl) hl
    · simp [operandsValid, State.lastV, hlast] at hvalid
    · exact ⟨⟨_, rfl, rfl⟩, hl⟩
  | pdestroy =>
    obtain ⟨hl, _⟩ | ⟨_, _, _, rfl⟩ := pdestroy_next h
    · exact absurd (hneed _ rfl) hl
    · exact ⟨⟨_, rfl, rfl⟩, rfl⟩
  | _ => cases hi

theorem rdlast_eq_raise_of_no_cache {s t : State} (h : exec .rdlast s = .next t) (hlast : s.last = none) :
    t = s.raise .state := by
  obtain ⟨_, rfl⟩ | ⟨_, _, hsome, _⟩ := rdlast_next h
  · rfl
  · simp [hlast] at hsome

/-- Settles O25: every command answers at a command boundary, and what it answers follows from the state it needs. -/
theorem lifecycleMovesAsTabulated : Obligations.LifecycleMovesAsTabulated := by
  refine ⟨fun s i h hi hwf => ?_, fun s rest hin => ⟨_, step_of_hreset hin, rfl⟩⟩
  obtain ⟨t, ht⟩ := command_answers h.config h.boundary hi hwf
  obtain ⟨r, hr⟩ := command_has_response hi ht
  have status_of_raise : t = s.raise .state → r.status = .error .state := by
    rintro rfl
    obtain rfl := Option.some.inj hr
    rfl
  refine ⟨t, r, ht, hr, fun hneed hvalid => ?completes, fun l hneed hl => ?wrongState, ?noCache,
    fun c hc => ?raises⟩
  case completes =>
    obtain ⟨⟨r', hr', hok⟩, hlc⟩ := completes_of_neededState hi ht hneed hvalid
    obtain rfl := Option.some.inj (hr.symm.trans hr')
    exact ⟨hok, hlc⟩
  case wrongState => exact status_of_raise (eq_raise_of_ne_neededState ht hneed hl)
  case noCache =>
    rintro rfl hlast
    exact status_of_raise (rdlast_eq_raise_of_no_cache ht hlast)
  case raises => rw [(exec_commandEnd hi ht).eq_raise hr hc, State.raise_eq_raisedState]

/-! ### The invariant of rule R39 through a command -/

/-- The boundary invariant speaks of no port and not of the error log. -/
theorem AtBoundary.of_ports {s : State} {e : BitVec 5} {l : List Input} {r : Option Response}
    {u : Option MicroResult} (h : AtBoundary s) :
    AtBoundary { s with errlog := e, input := l, resp := r, uresult := u } :=
  ⟨h.emptyHoldsNothing, h.patternIsLive, h.generatorPattern, h.unboundHasNoWindow, h.boundHasWindow,
    h.cacheIsBounded, h.generatorIsDead⟩

theorem AtBoundary.raise {s : State} {c : ErrCause} (h : AtBoundary s) : AtBoundary (s.raise c) :=
  h.of_ports

theorem AtBoundary.done {s : State} {i q : BitVec 32} (h : AtBoundary s) : AtBoundary (s.done i q) :=
  h.of_ports

theorem AtBoundary.withInput {s : State} (h : AtBoundary s) (l : List Input) : AtBoundary { s with input := l } :=
  h.of_ports

/-- A state in which nothing is held meets the boundary invariant. -/
theorem atBoundary_of_holdsNothing {s : State} (hl : s.lc = .empty) (hpn : s.pn = 0) (hpath : s.path = .explicit)
    (hri : s.refI = none) (hrq : s.refQ = none) (hxi : s.rxI = none) (hxq : s.rxQ = none)
    (hlast : s.last = none) (hsg : s.sg = none) : AtBoundary s where
  emptyHoldsNothing := fun _ => ⟨hpn, hpath, hri, hrq⟩
  patternIsLive := fun h => absurd hl h
  generatorPattern := by simp [hpath]
  unboundHasNoWindow := fun _ => ⟨hxi, hxq⟩
  boundHasWindow := by simp [hl]
  cacheIsBounded := by simp [hlast]
  generatorIsDead := hsg

theorem atBoundary_resetWith (c : Config) : AtBoundary (State.resetWith c) :=
  atBoundary_of_holdsNothing rfl rfl rfl rfl rfl rfl rfl rfl rfl

theorem AtBoundary.cache_eq_none {s : State} (h : AtBoundary s) (hl : s.lc ≠ .bound) : s.last = none :=
  Option.eq_none_iff_forall_ne_some.mpr fun v hv => hl (h.cacheIsBounded v hv).1

/-- A fresh pattern, in a state that held nothing, meets the boundary invariant. -/
theorem AtBoundary.build {s : State} {n : BitVec 24} {p : Path} {ri rq : Rail} (h : AtBoundary s)
    (hl : s.lc = .empty) (hn : 1 ≤ n.toNat ∧ n.toNat ≤ s.cfg.nmax) (hri : ri.length = n.toNat)
    (hrq : rq.length = n.toNat)
    (hgen : p = .generator → (∃ m, 2 ≤ m ∧ m ≤ 12 ∧ n.toNat = 2 ^ m - 1) ∧ rq = ri) :
    AtBoundary { s with
      refI := some ri, refQ := if patternComplex s.cfg.cls then some rq else s.refQ
      pn := n, path := p, lc := .ready } where
  emptyHoldsNothing := nofun
  patternIsLive := fun _ =>
    ⟨hn, liveWith_some.mpr hri, liveIff_write (fun _ => (h.emptyHoldsNothing hl).2.2.2) hrq⟩
  generatorPattern := fun hp =>
    ⟨(hgen hp).1, fun hc => by simp [show s.cfg.cls = .cc from hc, patternComplex, (hgen hp).2]⟩
  unboundHasNoWindow := fun _ => h.unboundHasNoWindow (by simp [hl])
  boundHasWindow := nofun
  cacheIsBounded := by simp [h.cache_eq_none (by simp [hl])]
  generatorIsDead := h.generatorIsDead

/-- Another window of the pattern's length, with a cache that is bounded, meets the boundary invariant. -/
theorem AtBoundary.window {s : State} {xi xq : Option Rail} {v : Option LastValue} (h : AtBoundary s)
    (hl : s.lc ≠ .empty) (hxi : LiveWith xi s.pn.toNat)
    (hxq : LiveIff (symbolComplex s.cfg.cls) xq s.pn.toNat)
    (hv : ∀ w, v = some w → NumeratorBound s.cfg.cls s.pn.toNat w.i.toInt w.q.toInt) :
    AtBoundary { s with rxI := xi, rxQ := xq, last := v, lc := .bound } where
  emptyHoldsNothing := nofun
  patternIsLive := fun _ => h.patternIsLive hl
  generatorPattern := h.generatorPattern
  unboundHasNoWindow := fun hne => absurd rfl hne
  boundHasWindow := fun _ => ⟨hxi, hxq⟩
  cacheIsBounded := fun w hw => ⟨rfl, hv w hw⟩
  generatorIsDead := h.generatorIsDead

/-- A bound state with its lifecycle register written out. -/
theorem State.with_lc_bound {s : State} (hl : s.lc = .bound) (xi xq : Option Rail) (v : Option LastValue) :
    ({ s with rxI := xi, rxQ := xq, last := v } : State) =
      { s with rxI := xi, rxQ := xq, last := v, lc := .bound } := by
  rw [← hl]

theorem pseq_keeps_atBoundary {n : BitVec 24} {burst : List OpWord} {s t : State} (h : AtBoundary s)
    (hx : exec (.pseq n burst) s = .next t) : AtBoundary t := by
  obtain ⟨hlen, ⟨_, rfl⟩ | ⟨_, _, rfl⟩ | ⟨_, _, rfl⟩ | ⟨hl, hpos, hmax, rfl⟩⟩ := pseq_next hx
  · exact h.raise
  · exact h.raise
  · exact h.raise
  · exact .done (h.build hl ⟨hpos, hmax⟩ (by simpa using hlen) (by simpa using hlen) nofun)

theorem pgen_keeps_atBoundary {sel : BitVec 4} {s t : State} (h : AtBoundary s)
    (hx : exec (.pgen sel) s = .next t) : AtBoundary t := by
  obtain ⟨_, rfl⟩ | ⟨_, _, rfl⟩ | ⟨hl, hsel, _, hmax, rfl⟩ := pgen_next hx
  · exact h.raise
  · exact h.raise
  · have hm : 2 ≤ sel.toNat + 2 ∧ sel.toNat + 2 ≤ 12 := by omega
    have hsize := two_pow_order_le hm
    have hn : (BitVec.ofNat 24 (2 ^ (sel.toNat + 2) - 1)).toNat = 2 ^ (sel.toNat + 2) - 1 := by
      rw [BitVec.toNat_ofNat, Nat.mod_eq_of_lt (by omega)]
    exact .done (h.build hl ⟨by omega, by omega⟩ (by rw [sgBits_length, hn]) (by rw [sgBits_length, hn])
      fun _ => ⟨⟨_, hm.1, hm.2, hn⟩, rfl⟩)

theorem pdestroy_keeps_atBoundary {s t : State} (h : AtBoundary s) (hx : exec .pdestroy s = .next t) :
    AtBoundary t := by
  obtain ⟨_, rfl⟩ | ⟨hl, _, _, rfl⟩ := pdestroy_next hx
  · exact h.raise
  · have hne : s.lc ≠ .bound := by simp [hl]
    obtain ⟨_, _, hrq⟩ := h.patternIsLive (by simp [hl])
    obtain ⟨hxi, hxq⟩ := h.unboundHasNoWindow hne
    exact .done (atBoundary_of_holdsNothing rfl rfl rfl rfl hrq.released hxi hxq (h.cache_eq_none hne)
      h.generatorIsDead)

theorem bind_keeps_atBoundary {s t : State} (h : AtBoundary s) (hx : exec .bind s = .next t) : AtBoundary t := by
  obtain ⟨_, rfl⟩ | ⟨hl, _, _, rfl⟩ := bind_next hx
  · exact h.raise
  · obtain ⟨_, hxq⟩ := h.unboundHasNoWindow (by simp [hl])
    exact .done (h.window (by simp [hl]) (by simp) (liveIff_write (fun _ => hxq) (zeros_length _)) nofun)

theorem reset_keeps_atBoundary {s t : State} (h : AtBoundary s) (hx : exec .reset s = .next t) :
    AtBoundary t := by
  obtain ⟨_, rfl⟩ | ⟨xi, hl, hxi, _, rfl⟩ := reset_next hx
  · exact h.raise
  · obtain ⟨hliveI, hliveQ⟩ := h.boundHasWindow hl
    rw [hxi, liveWith_some] at hliveI
    rw [State.with_lc_bound hl]
    exact .done
      (h.window (by simp [hl]) (by simpa using hliveI) (hliveQ.map_length fun _ => zeros_length _) nofun)

theorem push_keeps_atBoundary {op : OpWord} {s t : State} (hcfg : s.cfg.Wf) (h : AtBoundary s)
    (hx : exec (.push op) s = .next t) : AtBoundary t := by
  obtain ⟨_, rfl⟩ | ⟨xi, _, i, q, hl, hxi, _, rfl, hacc, rfl⟩ := push_next hx
  · exact h.raise
  · obtain ⟨hliveI, hliveQ⟩ := h.boundHasWindow hl
    obtain ⟨⟨_, hn⟩, hri, hrq⟩ := h.patternIsLive (by simp [hl])
    rw [hxi, liveWith_some] at hliveI
    have hbound := accumulate_numeratorBound hri hrq hacc
    have hmax : s.cfg.nmax ≤ 2 ^ 24 - 1 := hcfg.1.2
    obtain ⟨hi, hq⟩ := hbound.toInt_ofInt (by omega)
    rw [State.with_lc_bound hl]
    refine .done (h.window (by simp [hl]) (by simpa using hliveI)
      (hliveQ.map_length fun _ => railPush_length _ _) ?_)
    rintro _ ⟨⟩
    rwa [hi, hq]

theorem destroy_keeps_atBoundary {s t : State} (h : AtBoundary s) (hx : exec .destroy s = .next t) :
    AtBoundary t := by
  obtain ⟨_, rfl⟩ | ⟨hl, _, _, ⟨hp, rfl⟩ | ⟨_, _, _, rfl⟩⟩ := destroy_next hx
  · exact h.raise
  · obtain ⟨_, hxq⟩ := h.boundHasWindow hl
    exact .done
      { emptyHoldsNothing := nofun
        patternIsLive := fun _ => h.patternIsLive (by simp [hl])
        generatorPattern := h.generatorPattern
        unboundHasNoWindow := fun _ => ⟨rfl, hxq.released⟩
        boundHasWindow := nofun
        cacheIsBounded := nofun
        generatorIsDead := h.generatorIsDead }
  · obtain ⟨_, hxq⟩ := h.boundHasWindow hl
    obtain ⟨_, _, hrq⟩ := h.patternIsLive (by simp [hl])
    exact .done
      (atBoundary_of_holdsNothing rfl rfl rfl rfl hrq.released rfl hxq.released rfl h.generatorIsDead)

theorem rdlast_keeps_atBoundary {s t : State} (h : AtBoundary s) (hx : exec .rdlast s = .next t) :
    AtBoundary t := by
  obtain ⟨_, rfl⟩ | ⟨_, _, _, rfl⟩ := rdlast_next hx
  exacts [h.raise, h.done]

theorem command_keeps_atBoundary {i : Instr} {s t : State} (hi : i.isCommand = true) (hcfg : s.cfg.Wf)
    (h : AtBoundary s) (hx : exec i s = .next t) : AtBoundary t := by
  cases i with
  | pseq n burst => exact pseq_keeps_atBoundary h hx
  | pgen sel => exact pgen_keeps_atBoundary h hx
  | bind => exact bind_keeps_atBoundary h hx
  | reset => exact reset_keeps_atBoundary h hx
  | push op => exact push_keeps_atBoundary hcfg h hx
  | destroy => exact destroy_keeps_atBoundary h hx
  | info => obtain rfl := info_next hx; exact h.done
  | rdlast => exact rdlast_keeps_atBoundary h hx
  | pdestroy => exact pdestroy_keeps_atBoundary h hx
  | _ => cases hi

/-! ### A step of a host-driven engine -/

theorem decodeBare_eq_ok {w : CommandWord} {i j : Instr} (h : decodeBare w i = .ok j) : j = i := by
  unfold decodeBare at h
  split at h <;> cases h
  rfl

/-- The command port carries host commands only (30_encoding.md rules R72 and R82). -/
theorem isCommand_of_decode_command {w : CommandWord} {burst : List OpWord} {i : Instr}
    (h : decode (.command w burst) = .ok i) : i.isCommand = true := by
  rw [decode, decodeCommand] at h
  split at h
  case isFalse => cases h
  unfold decodeOpcode at h
  split at h
  next => cases h; rfl
  next => split at h <;> cases h; rfl
  next => rw [decodeBare_eq_ok h]; rfl
  next => rw [decodeBare_eq_ok h]; rfl
  next =>
    split at h
    · rw [decodeBare_eq_ok h]; rfl
    · cases h
  next => rw [decodeBare_eq_ok h]; rfl
  next => rw [decodeBare_eq_ok h]; rfl
  next => rw [decodeBare_eq_ok h]; rfl
  next => rw [decodeBare_eq_ok h]; rfl
  next => cases h

theorem HostDriven.rest {s : State} {x : Input} {rest : List Input} (h : HostDriven s)
    (hin : s.input = x :: rest) : ∀ y ∈ rest, y.isHost = true :=
  fun y hy => h y (hin ▸ List.mem_cons_of_mem x hy)

/-- What a host presents decodes to a command. -/
theorem HostDriven.isCommand {s : State} {tr : Transaction} {rest : List Input} {i : Instr} (h : HostDriven s)
    (hin : s.input = .transaction tr :: rest) (hd : decode tr = .ok i) : i.isCommand = true := by
  have hhost := h (.transaction tr) (hin ▸ List.mem_cons_self)
  cases tr with
  | command w burst => exact isCommand_of_decode_command hd
  | micro w args => cases hhost

/-- Settles O51: by the way a step answers, and for a command by what it does to the pattern, the window and the
cache. -/
theorem stepKeepsTheHostInvariant : Obligations.StepKeepsTheHostInvariant := by
  intro s t h hstep
  have hcfg : t.cfg.Wf := by rw [step_keeps_cfg hstep]; exact h.config
  obtain ⟨_, rfl⟩ | ⟨rest, hin, rfl⟩ | ⟨_, _, rest, hin, _, rfl⟩ | ⟨tr, rest, i, hin, hd, hx⟩ := step_next hstep
  · exact h
  · exact ⟨hcfg, h.hostDriven.rest hin, (atBoundary_resetWith s.cfg).withInput rest⟩
  · exact ⟨hcfg, h.hostDriven.rest hin, (h.boundary.withInput rest).raise⟩
  · have hi := h.hostDriven.isCommand hin hd
    have hrest : t.input = rest := command_keeps_input hi hx
    have hdriven : HostDriven t := by rw [HostDriven, hrest]; exact h.hostDriven.rest hin
    exact ⟨hcfg, hdriven, command_keeps_atBoundary (s := { s with input := rest }) hi h.config
      (h.boundary.withInput rest) hx⟩

/-! ### BIND, RESET and PUSH as equations -/

theorem bind_of_ready {s : State} (hl : s.lc = .ready) (hn : 1 ≤ s.pn.toNat ∧ s.pn.toNat ≤ s.cfg.nmax) :
    exec .bind s = .next ({ s with
      rxI := some (zeros s.pn.toNat)
      rxQ := if symbolComplex s.cfg.cls then some (zeros s.pn.toNat) else s.rxQ
      last := none, lc := .bound }.done 0 0) := by
  simp only [exec, execBind, inLifecycle_of_eq hl, toOutcome_eq_next, except_bind_eq_ok]
  refine ⟨_, bsbCreate_eq_ok.mpr ⟨hn, rfl⟩, _, ifExists_eq_ok.mpr ?_, rfl⟩
  split
  · exact except_map_eq_ok.mpr ⟨_, bsbCreate_eq_ok.mpr ⟨hn, rfl⟩, rfl⟩
  · rfl

theorem bind_of_ne_ready {s : State} (hl : s.lc ≠ .ready) : exec .bind s = .next (s.raise .state) :=
  inLifecycle_of_ne hl

theorem reset_of_ne_bound {s : State} (hl : s.lc ≠ .bound) : exec .reset s = .next (s.raise .state) :=
  inLifecycle_of_ne hl

/-- Clearing a rail that is live with the length n is writing n zeros where the rail exists. -/
theorem LiveIff.clear {b : Bool} {p : Option Rail} {n : Nat} (h : LiveIff b p n) :
    ifExists b p (some <$> bsbClear p) = .ok (if b = true then some (zeros n) else none) := by
  cases b with
  | false => exact congrArg _ (h.eq_none rfl)
  | true =>
    obtain ⟨r, rfl, rfl⟩ := h.liveWith rfl
    rfl

/-- Clearing a rail a second time changes nothing. -/
theorem ifExists_bsbClear_cleared {b : Bool} {p q : Option Rail} (hlive : b = true → p ≠ none)
    (hq : q = if b = true then p.map (fun x : Rail => zeros x.length) else p) :
    ifExists b q (some <$> bsbClear q) = .ok q := by
  cases b with
  | false => rfl
  | true =>
    obtain ⟨x, rfl⟩ := rail_ne_none.mp (hlive rfl)
    obtain rfl : q = some (zeros x.length) := hq
    exact except_map_eq_ok.mpr ⟨_, bsbClear_eq_ok.mpr ⟨_, rfl, rfl⟩, by rw [zeros_length]⟩

/-- `RESET` of a bound state at a command boundary: the window the `BIND` of rule R175 creates. -/
theorem reset_of_atBoundary {s : State} (h : AtBoundary s) (hl : s.lc = .bound) :
    exec .reset s = .next ({ s with
      rxI := some (zeros s.pn.toNat)
      rxQ := if symbolComplex s.cfg.cls then some (zeros s.pn.toNat) else none
      last := none }.done 0 0) := by
  obtain ⟨⟨xi, hxi, hlen⟩, hxq⟩ := h.boundHasWindow hl
  rw [reset_of_bound hl hxi hxq.clear, hlen]

theorem reset_eq_bind {s : State} (h : AtBoundary s) (hl : s.lc = .bound) :
    exec .reset s = exec .bind { s with lc := .ready, rxI := none, rxQ := none, last := none } := by
  obtain ⟨hn, _⟩ := h.patternIsLive (by simp [hl])
  rw [reset_of_atBoundary h hl, State.with_lc_bound hl]
  exact (bind_of_ready (s := { s with lc := .ready, rxI := none, rxQ := none, last := none }) rfl hn).symm

/-- `RESET` of a window that is clear already, right after an `OK` of two zeros, changes nothing. -/
theorem reset_of_clear {s : State} {n : Nat} (hl : s.lc = .bound) (hxi : s.rxI = some (zeros n))
    (hxq : ifExists (symbolComplex s.cfg.cls) s.rxQ (some <$> bsbClear s.rxQ) = .ok s.rxQ)
    (hlast : s.last = none) (hresp : s.resp = some { status := .ok, valI := 0, valQ := 0 }) :
    exec .reset s = .next s := by
  rw [reset_of_bound hl hxi hxq, zeros_length, State.done, ← hxi, ← hlast, ← hresp]

/-- A second `RESET` leaves the state the first one left. -/
theorem reset_again {s t : State} (h : exec .reset s = .next t) : exec .reset t = .next t := by
  obtain ⟨hl, rfl⟩ | ⟨xi, hl, hxi, hlive, rfl⟩ := reset_next h
  · rw [reset_of_ne_bound (s := s.raise .state) hl, State.raise_raise]
  · exact reset_of_clear hl rfl (ifExists_bsbClear_cleared hlive rfl) rfl rfl

/-- Settles O18: `RESET` and the fresh `BIND` both leave a window of zeros of the pattern's length. -/
theorem resetEqualsAFreshBind : Obligations.ResetEqualsAFreshBind := by
  refine ⟨fun s h hl => ?_, fun s t h => reset_again h⟩
  obtain ⟨t, ht⟩ := reset_answers h.boundary
  exact ⟨t, ht, reset_eq_bind h.boundary hl ▸ ht⟩

/-- Settles O21: no check and no operation of `PUSH` reads `PATH`. -/
theorem pushIsAgnosticToPath : Obligations.PushIsAgnosticToPath := by
  intro s t op p h
  simp only [exec, execPush, inLifecycle_eq_next, except_bind_eq_ok, except_pure_eq_ok] at h ⊢
  obtain ⟨hl, rxI, hxi, rxQ, hxq, z, hacc, rfl⟩ | ⟨hl, rfl⟩ := h
  · exact .inl ⟨hl, rxI, hxi, rxQ, hxq, z, hacc, rfl⟩
  · exact .inr ⟨hl, rfl⟩

/-! ### Expansions (30_encoding.md rule R91) -/

/-- The commands that open an expansion, `PSEQ` and `PGEN`, are those that need `EMPTY`; one of them builds a pattern
and answers two zeros, or it raises. -/
theorem opening_next {i : Instr} {s t : State} (hneed : neededState i = some .empty) (h : exec i s = .next t) :
    (s.lc = .empty ∧ t.lc = .ready ∧ t.resp = some { status := .ok, valI := 0, valQ := 0 }) ∨
      ∃ c, t = s.raise c := by
  cases i with
  | pseq n burst =>
    obtain ⟨_, ⟨_, rfl⟩ | ⟨_, _, rfl⟩ | ⟨_, _, rfl⟩ | ⟨hl, _, _, rfl⟩⟩ := pseq_next h
    exacts [.inr ⟨_, rfl⟩, .inr ⟨_, rfl⟩, .inr ⟨_, rfl⟩, .inl ⟨hl, rfl, rfl⟩]
  | pgen sel =>
    obtain ⟨_, rfl⟩ | ⟨_, _, rfl⟩ | ⟨hl, _, _, _, rfl⟩ := pgen_next h
    exacts [.inr ⟨_, rfl⟩, .inr ⟨_, rfl⟩, .inl ⟨hl, rfl, rfl⟩]
  | _ => cases hneed

/-- Settles O60: where the first command builds its pattern the state is `READY` at a command boundary, so `BIND`
completes, and where it raises it leaves the lifecycle state and the pattern as they were. -/
theorem pseudoInstructionsOpenOrRaise : Obligations.PseudoInstructionsOpenOrRaise := by
  intro s i run h hopen
  obtain ⟨hi, hwf, hneed, hrun⟩ : i.isCommand = true ∧ i.wf = true ∧ neededState i = some .empty ∧
      run s = execExpansion (exec i s) := by
    obtain ⟨n, burst, hopen, hwf, rfl⟩ | ⟨sel, hopen, rfl⟩ := hopen
    · obtain rfl : .pseq n burst = i := (List.cons.inj hopen).1
      exact ⟨rfl, hwf, rfl, rfl⟩
    · obtain rfl : .pgen sel = i := (List.cons.inj hopen).1
      exact ⟨rfl, rfl, rfl, rfl⟩
  obtain ⟨t, ht⟩ := command_answers h.config h.boundary hi hwf
  rw [hrun, ht]
  obtain ⟨hl, htl, htr⟩ | ⟨c, rfl⟩ := opening_next hneed ht
  · have htb := command_keeps_atBoundary hi h.config h.boundary ht
    have hbind := bind_of_ready htl (htb.patternIsLive (by simp [htl])).1
    have hexp : execExpansion (.next t) = exec .bind t := by
      simp [execExpansion, execExpansionBind, State.answeredError, htr, exec]
    exact ⟨t, _, rfl, hexp.trans hbind, .inl ⟨htr, htl, rfl, rfl, rfl, rfl, rfl, rfl⟩, fun _ => hbind,
      fun hready => by simp [hl] at hready⟩
  · refine ⟨_, (s.raise c).raise .state, rfl, rfl,
      .inr ⟨c, s.raise_eq_raisedState c, State.raise_eq_raisedState _ .state⟩, fun hne => bind_of_ne_ready hne,
      fun hready => ?_⟩
    have hn := (h.boundary.patternIsLive (by simp [hready])).1
    exact ⟨_, bind_of_ready (s := s.raise c) hready hn, rfl, rfl, rfl, rfl, rfl⟩

/-! ### Rails the class does not have (10_state.md rules R28 and R30) -/

theorem onRail_of_absent {s : State} {n : RailName} {body : Except Refusal State}
    (hn : railExists s.cfg.cls n = false) : onRail s n body = .error .railAbsent := by
  simp [onRail, hn]

/-- A micro-operation on two rails is refused where the second is absent, whichever the first is. -/
theorem onRail_of_absent_inner {s : State} {n k : RailName} {body : Except Refusal State}
    (hn : railExists s.cfg.cls n = false) : onRail s k (onRail s n body) = .error .railAbsent := by
  rw [onRail_of_absent hn]
  unfold onRail
  split <;> rfl

/-- Settles O40: the check of the rail stands before every operation that names it. -/
theorem absentRailIsRefused : Obligations.AbsentRailIsRefused := by
  intro s n k b len hn
  have refused : ∀ body, toOutcome (onRail s n body) = .refused .railAbsent := fun _ =>
    toOutcome_eq_refused.mpr (onRail_of_absent hn)
  exact ⟨refused _, refused _, refused _, refused _, refused _,
    toOutcome_eq_refused.mpr (onRail_of_absent_inner hn)⟩

/-! ### The invariant of the units -/

/-- What `UnitInv` asks of one place: a rail in it exists in the class and has a legal length. -/
def LegalRail (c : Config) (n : RailName) (p : Option Rail) : Prop :=
  ∀ r, p = some r → railExists c.cls n = true ∧ 1 ≤ r.length ∧ r.length ≤ c.nmax

/-- What `UnitInv` asks of the generator's place: a supported order and a register of that many bits. -/
def LegalSg (p : Option SgState) : Prop :=
  ∀ g, p = some g → (2 ≤ g.m.toNat ∧ g.m.toNat ≤ 12) ∧ g.v.toNat < 2 ^ g.m.toNat

theorem unitInv_iff {s : State} :
    UnitInv s ↔ s.cfg.Wf ∧ (∀ n, LegalRail s.cfg n (s.rail n)) ∧ LegalSg s.sg :=
  ⟨fun ⟨hcfg, hrails, hsg⟩ => ⟨hcfg, hrails, hsg⟩, fun ⟨hcfg, hrails, hsg⟩ => ⟨hcfg, hrails, hsg⟩⟩

theorem UnitInv.legalRail {s : State} (h : UnitInv s) (n : RailName) : LegalRail s.cfg n (s.rail n) := h.rails n

theorem legalRail_none (c : Config) (n : RailName) : LegalRail c n none := nofun

theorem legalRail_some {c : Config} {n : RailName} {r : Rail} :
    LegalRail c n (some r) ↔ railExists c.cls n = true ∧ 1 ≤ r.length ∧ r.length ≤ c.nmax := by
  simp [LegalRail]

theorem LegalRail.ite {c : Config} {n : RailName} {b : Bool} {p q : Option Rail}
    (hnew : b = true → LegalRail c n p) (hold : LegalRail c n q) : LegalRail c n (if b = true then p else q) := by
  split
  next hb => exact hnew hb
  next => exact hold

theorem LegalRail.map_length {c : Config} {n : RailName} {p : Option Rail} {f : Rail → Rail}
    (h : LegalRail c n p) (hf : ∀ r, (f r).length = r.length) : LegalRail c n (p.map f) := by
  cases p with
  | none => exact legalRail_none c n
  | some r => rwa [Option.map_some, legalRail_some, hf, ← legalRail_some]

theorem LegalRail.of_some {c : Config} {n : RailName} {p : Option Rail} {x r : Rail} (h : LegalRail c n p)
    (hp : p = some x) (hr : r.length = x.length) : LegalRail c n (some r) := by
  rwa [legalRail_some, hr, ← legalRail_some, ← hp]

/-- The unit invariant speaks of the parameters, the rails and the generator only. -/
theorem UnitInv.of_rails {s t : State} (h : UnitInv s) (hcfg : t.cfg = s.cfg) (hsg : t.sg = s.sg)
    (hrails : ∀ n, LegalRail s.cfg n (t.rail n)) : UnitInv t := by
  rw [unitInv_iff, hcfg, hsg]
  exact ⟨h.config, hrails, h.generator⟩

theorem UnitInv.raise {s : State} {c : ErrCause} (h : UnitInv s) : UnitInv (s.raise c) :=
  h.of_rails rfl rfl h.rails

theorem UnitInv.done {s : State} {i q : BitVec 32} (h : UnitInv s) : UnitInv (s.done i q) :=
  h.of_rails rfl rfl h.rails

theorem UnitInv.withInput {s : State} (h : UnitInv s) (l : List Input) : UnitInv { s with input := l } :=
  h.of_rails rfl rfl h.rails

theorem UnitInv.withResult {s : State} {u : Option MicroResult} (h : UnitInv s) :
    UnitInv { s with uresult := u } :=
  h.of_rails rfl rfl h.rails

@[simp] theorem State.setRail_sg (s : State) (n : RailName) (r : Option Rail) : (s.setRail n r).sg = s.sg := by
  cases n <;> rfl

theorem UnitInv.setRail {s : State} {n : RailName} {p : Option Rail} (h : UnitInv s)
    (hp : LegalRail s.cfg n p) : UnitInv (s.setRail n p) := by
  refine h.of_rails (State.setRail_cfg s n p) (State.setRail_sg s n p) fun k => ?_
  by_cases hk : k = n
  · rw [hk, State.rail_setRail_same]
    exact hp
  · rw [State.rail_setRail_of_ne s n k p hk]
    exact h.legalRail k

theorem UnitInv.setSg {s : State} {p : Option SgState} {u : Option MicroResult} (h : UnitInv s)
    (hp : LegalSg p) : UnitInv { s with sg := p, uresult := u } :=
  unitInv_iff.mpr ⟨h.config, h.rails, hp⟩

/-- Other received rails, both legal. -/
theorem UnitInv.setWindow {s : State} {xi xq : Option Rail} {v : Option LastValue} {l : Lifecycle} (h : UnitInv s)
    (hxi : LegalRail s.cfg .rxI xi) (hxq : LegalRail s.cfg .rxQ xq) :
    UnitInv { s with rxI := xi, rxQ := xq, last := v, lc := l } := by
  refine h.of_rails rfl rfl fun n => ?_
  cases n with
  | refI => exact h.legalRail .refI
  | refQ => exact h.legalRail .refQ
  | rxI => exact hxi
  | rxQ => exact hxq

/-- Other reference rails, both legal. -/
theorem UnitInv.setPattern {s : State} {ri rq : Option Rail} {n : BitVec 24} {p : Path} {l : Lifecycle}
    (h : UnitInv s) (hri : LegalRail s.cfg .refI ri) (hrq : LegalRail s.cfg .refQ rq) :
    UnitInv { s with refI := ri, refQ := rq, pn := n, path := p, lc := l } := by
  refine h.of_rails rfl rfl fun k => ?_
  cases k with
  | refI => exact hri
  | refQ => exact hrq
  | rxI => exact h.legalRail .rxI
  | rxQ => exact h.legalRail .rxQ

theorem unitInv_resetWith {c : Config} (hc : c.Wf) : UnitInv (State.resetWith c) where
  config := hc
  rails := by intro n r; cases n <;> exact nofun
  generator := nofun

/-! ### The unit invariant through a command -/

theorem pseq_keeps_unitInv {n : BitVec 24} {burst : List OpWord} {s t : State} (h : UnitInv s)
    (hx : exec (.pseq n burst) s = .next t) : UnitInv t := by
  obtain ⟨hlen, ⟨_, rfl⟩ | ⟨_, _, rfl⟩ | ⟨_, _, rfl⟩ | ⟨_, hpos, hmax, rfl⟩⟩ := pseq_next hx
  · exact h.raise
  · exact h.raise
  · exact h.raise
  · have hbits : ∀ f : OpWord → Bool, 1 ≤ (burst.map f).length ∧ (burst.map f).length ≤ s.cfg.nmax := by
      intro f
      rw [List.length_map]
      omega
    exact .done (h.setPattern (legalRail_some.mpr ⟨rfl, hbits _⟩)
      (.ite (fun hc => legalRail_some.mpr ⟨hc, hbits _⟩) (h.legalRail .refQ)))

theorem pgen_keeps_unitInv {sel : BitVec 4} {s t : State} (h : UnitInv s) (hx : exec (.pgen sel) s = .next t) :
    UnitInv t := by
  obtain ⟨_, rfl⟩ | ⟨_, _, rfl⟩ | ⟨_, hsel, _, hmax, rfl⟩ := pgen_next hx
  · exact h.raise
  · exact h.raise
  · have hsize := two_pow_order_le (m := sel.toNat + 2) (by omega)
    have hbits : 1 ≤ (sgBits s.cfg (sel.toNat + 2) (2 ^ (sel.toNat + 2) - 1)).length ∧
        (sgBits s.cfg (sel.toNat + 2) (2 ^ (sel.toNat + 2) - 1)).length ≤ s.cfg.nmax := by
      rw [sgBits_length]
      omega
    exact .done (h.setPattern (legalRail_some.mpr ⟨rfl, hbits⟩)
      (.ite (fun hc => legalRail_some.mpr ⟨hc, hbits⟩) (h.legalRail .refQ)))

theorem pdestroy_keeps_unitInv {s t : State} (h : UnitInv s) (hx : exec .pdestroy s = .next t) : UnitInv t := by
  obtain ⟨_, rfl⟩ | ⟨_, _, _, rfl⟩ := pdestroy_next hx
  · exact h.raise
  · exact .done (h.setPattern (legalRail_none _ _) (.ite (fun _ => legalRail_none _ _) (h.legalRail .refQ)))

theorem bind_keeps_unitInv {s t : State} (h : UnitInv s) (hx : exec .bind s = .next t) : UnitInv t := by
  obtain ⟨_, rfl⟩ | ⟨_, hpos, hmax, rfl⟩ := bind_next hx
  · exact h.raise
  · have hzeros : 1 ≤ (zeros s.pn.toNat).length ∧ (zeros s.pn.toNat).length ≤ s.cfg.nmax := by
      rw [zeros_length]
      exact ⟨hpos, hmax⟩
    exact .done (h.setWindow (legalRail_some.mpr ⟨rfl, hzeros⟩)
      (.ite (fun hc => legalRail_some.mpr ⟨hc, hzeros⟩) (h.legalRail .rxQ)))

theorem reset_keeps_unitInv {s t : State} (h : UnitInv s) (hx : exec .reset s = .next t) : UnitInv t := by
  obtain ⟨_, rfl⟩ | ⟨xi, _, hxi, _, rfl⟩ := reset_next hx
  · exact h.raise
  · exact .done (h.setWindow ((h.legalRail .rxI).of_some hxi (zeros_length _))
      (.ite (fun _ => (h.legalRail .rxQ).map_length fun _ => zeros_length _) (h.legalRail .rxQ)))

theorem push_keeps_unitInv {op : OpWord} {s t : State} (h : UnitInv s) (hx : exec (.push op) s = .next t) :
    UnitInv t := by
  obtain ⟨_, rfl⟩ | ⟨xi, _, i, q, _, hxi, _, rfl, _, rfl⟩ := push_next hx
  · exact h.raise
  · exact .done (h.setWindow ((h.legalRail .rxI).of_some hxi (railPush_length _ _))
      (.ite (fun _ => (h.legalRail .rxQ).map_length fun _ => railPush_length _ _) (h.legalRail .rxQ)))

theorem destroy_keeps_unitInv {s t : State} (h : UnitInv s) (hx : exec .destroy s = .next t) : UnitInv t := by
  obtain ⟨_, rfl⟩ | ⟨_, _, _, hdone⟩ := destroy_next hx
  · exact h.raise
  · have hwindow : ∀ l, UnitInv { s with
        rxI := none, rxQ := if symbolComplex s.cfg.cls then none else s.rxQ, last := none, lc := l } := fun _ =>
      h.setWindow (legalRail_none _ _) (.ite (fun _ => legalRail_none _ _) (h.legalRail .rxQ))
    obtain ⟨_, rfl⟩ | ⟨_, _, _, rfl⟩ := hdone
    · exact (hwindow .ready).done
    · exact .done ((hwindow s.lc).setPattern (legalRail_none _ _)
        (.ite (fun _ => legalRail_none _ _) (h.legalRail .refQ)))

theorem rdlast_keeps_unitInv {s t : State} (h : UnitInv s) (hx : exec .rdlast s = .next t) : UnitInv t := by
  obtain ⟨_, rfl⟩ | ⟨_, _, _, rfl⟩ := rdlast_next hx
  exacts [h.raise, h.done]

/-! ### The unit invariant through a micro-operation -/

/-- An operation that keeps the length of a named rail. -/
theorem UnitInv.setRail_of_length {s : State} {n : RailName} {x r : Rail} {u : Option MicroResult} (h : UnitInv s)
    (hx : s.rail n = some x) (hr : r.length = x.length) :
    UnitInv { s.setRail n (some r) with uresult := u } :=
  (h.setRail ((h.legalRail n).of_some hx hr)).withResult

/-- The initial register of a supported order has that many bits (00_scope.md rule R9). -/
theorem Config.Wf.legalSg_initial {c : Config} (hc : c.Wf) {g : SgState} (hm : 2 ≤ g.m.toNat ∧ g.m.toNat ≤ 12)
    (hv : g.v = sgA c g.m.toNat) : LegalSg (some g) := by
  obtain ⟨_, _, _, horders⟩ := hc
  have hmem : g.m.toNat ∈ sgOrders := by
    simp only [sgOrders, List.mem_cons, List.not_mem_nil]
    omega
  rintro _ ⟨⟩
  rw [hv]
  exact ⟨hm, (horders _ hmem).2.1⟩

theorem sgCreate_keeps_unitInv {m : Nat} {s t : State} (h : UnitInv s) (hx : exec (.sgCreate m) s = .next t) :
    UnitInv t := by
  obtain ⟨_, hm, rfl⟩ := sgCreate_next hx
  have hm' : (BitVec.ofNat 4 m).toNat = m := by
    rw [BitVec.toNat_ofNat]
    omega
  exact h.setSg (Config.Wf.legalSg_initial h.config (by simpa only [hm'] using hm) (by simp only [hm']))

theorem sgReset_keeps_unitInv {s t : State} (h : UnitInv s) (hx : exec .sgReset s = .next t) : UnitInv t := by
  obtain ⟨g, hg, rfl⟩ := sgReset_next hx
  exact h.setSg (Config.Wf.legalSg_initial h.config (h.generator g hg).1 rfl)

theorem sgNext_keeps_unitInv {s t : State} (h : UnitInv s) (hx : exec .sgNext s = .next t) : UnitInv t := by
  obtain ⟨g, hg, rfl⟩ := sgNext_next hx
  refine h.setSg ?_
  rintro _ ⟨⟩
  obtain ⟨hm, _⟩ := h.generator g hg
  rw [sgNext_m, sgNext_v]
  exact ⟨hm, sgStep_lt hm.2 _⟩

theorem exec_keeps_unitInv {i : Instr} {s t : State} (h : UnitInv s) (hx : exec i s = .next t) : UnitInv t := by
  cases i with
  | pseq n burst => exact pseq_keeps_unitInv h hx
  | pgen sel => exact pgen_keeps_unitInv h hx
  | bind => exact bind_keeps_unitInv h hx
  | reset => exact reset_keeps_unitInv h hx
  | push op => exact push_keeps_unitInv h hx
  | destroy => exact destroy_keeps_unitInv h hx
  | info => obtain rfl := info_next hx; exact h.done
  | rdlast => exact rdlast_keeps_unitInv h hx
  | pdestroy => exact pdestroy_keeps_unitInv h hx
  | bsbCreate n len =>
    obtain ⟨hn, hlen, rfl⟩ := bsbCreate_next hx
    exact (h.setRail (legalRail_some.mpr ⟨hn, by rwa [zeros_length]⟩)).withResult
  | bsbPush n b =>
    obtain ⟨_, _, hr, rfl⟩ := bsbPush_next hx
    exact h.setRail_of_length hr (railPush_length _ _)
  | bsbCorr m n =>
    obtain ⟨_, _, _, _, _, _, _, rfl⟩ := bsbCorr_next hx
    exact h.withResult
  | bsbClear n =>
    obtain ⟨_, _, hr, rfl⟩ := bsbClear_next hx
    exact h.setRail_of_length hr (zeros_length _)
  | bsbDestroy n =>
    obtain ⟨_, _, _, rfl⟩ := bsbDestroy_next hx
    exact (h.setRail (legalRail_none _ _)).withResult
  | sgCreate m => exact sgCreate_keeps_unitInv h hx
  | sgReset => exact sgReset_keeps_unitInv h hx
  | sgNext => exact sgNext_keeps_unitInv h hx
  | sgLen =>
    obtain ⟨_, _, rfl⟩ := sgLen_next hx
    exact h.withResult
  | sgDestroy =>
    obtain ⟨_, _, rfl⟩ := sgDestroy_next hx
    exact h.setSg nofun

/-- Settles O52: by the way a step answers, and for an instruction by the rail or the generator it writes. -/
theorem stepKeepsTheUnitInvariant : Obligations.StepKeepsTheUnitInvariant := by
  intro s t h hstep
  obtain ⟨_, rfl⟩ | ⟨rest, _, rfl⟩ | ⟨_, _, rest, _, _, rfl⟩ | ⟨_, rest, i, _, _, hx⟩ := step_next hstep
  · exact h
  · exact (unitInv_resetWith h.config).withInput rest
  · exact (h.withInput rest).raise
  · exact exec_keeps_unitInv (h.withInput rest) hx

/-! ### The reset state (10_state.md rule R40) -/

theorem hostInv_resetWith {c : Config} (hc : c.Wf) : HostInv (State.resetWith c) :=
  ⟨hc, nofun, atBoundary_resetWith c⟩

theorem default_wf : Config.default.Wf := by decide

/-- Settles O50: the reset state holds nothing, and the default configuration is legal. -/
theorem resetMeetsTheInvariants : Obligations.ResetMeetsTheInvariants :=
  ⟨fun _ hc => ⟨hostInv_resetWith hc, unitInv_resetWith hc⟩, hostInv_resetWith default_wf, unitInv_resetWith default_wf⟩

end Sys2Proof.Machine

/-! ## Encoding: command words, the decoder and the encoder, operand words and assembly

Words are fields packed into one number, so a word and its fields determine each other. For command words this makes the
decoder and the encoder each other's inverses; for operand words it gives the components of a sample, and for `INFO` the
fields of its response. -/

namespace Sys2Proof.Machine

/-! ### Fields packed into a word -/

theorem toNat_mul_two_pow_lt {w k n : Nat} (x : BitVec n) (h : k + n ≤ w) : x.toNat * 2 ^ k < 2 ^ w :=
  calc x.toNat * 2 ^ k < 2 ^ n * 2 ^ k := Nat.mul_lt_mul_of_pos_right x.isLt (Nat.two_pow_pos k)
    _ = 2 ^ (k + n) := by rw [Nat.add_comm, Nat.pow_add]
    _ ≤ 2 ^ w := Nat.pow_le_pow_right (by decide) h

/-- A field that starts above the bits of `a` is added to it by the disjunction. -/
theorem toNat_or_field {w k n : Nat} {a : BitVec w} (x : BitVec n) (h : k + n ≤ w) (ha : a.toNat < 2 ^ k) :
    (a ||| x.setWidth w <<< k).toNat = a.toNat + x.toNat * 2 ^ k := by
  rw [BitVec.toNat_or, BitVec.toNat_shiftLeft, BitVec.toNat_setWidth_of_le (by omega), Nat.shiftLeft_eq,
    Nat.mod_eq_of_lt (toNat_mul_two_pow_lt x h), ← Nat.shiftLeft_eq, Nat.or_comm,
    ← Nat.shiftLeft_add_eq_or_of_lt ha, Nat.shiftLeft_eq, Nat.add_comm]

/-- A field is read out by dividing. -/
theorem extractLsb'_eq_iff {w k n : Nat} {a : BitVec w} {x : BitVec n} :
    a.extractLsb' k n = x ↔ a.toNat / 2 ^ k % 2 ^ n = x.toNat := by
  rw [← BitVec.toNat_inj, BitVec.extractLsb'_toNat, Nat.shiftRight_eq_div_pow]

theorem extractLsb'_eq_zero_iff {w k n : Nat} {a : BitVec w} :
    a.extractLsb' k n = 0 ↔ a.toNat / 2 ^ k % 2 ^ n = 0 :=
  extractLsb'_eq_iff

theorem commandWord_toNat (opc : BitVec 8) (arg : BitVec 24) :
    (commandWord opc arg).toNat = arg.toNat + opc.toNat * 2 ^ 24 := by
  have harg : (arg.setWidth 32).toNat = arg.toNat := BitVec.toNat_setWidth_of_le (by decide)
  rw [commandWord, BitVec.or_comm, toNat_or_field opc (by decide) (harg.trans_lt arg.isLt), harg]

theorem opcNat_commandWord (opc : BitVec 8) (arg : BitVec 24) : opcNat (commandWord opc arg) = opc.toNat := by
  have := arg.isLt
  rw [opcNat, commandWord_toNat]
  omega

theorem argNat_commandWord (opc : BitVec 8) (arg : BitVec 24) : argNat (commandWord opc arg) = arg.toNat := by
  have := arg.isLt
  rw [argNat, commandWord_toNat]
  omega

@[simp] theorem fieldOpc_commandWord (opc : BitVec 8) (arg : BitVec 24) : fieldOpc (commandWord opc arg) = opc :=
  BitVec.eq_of_toNat_eq (by rw [fieldOpc_toNat, opcNat_commandWord])

@[simp] theorem fieldArg_commandWord (opc : BitVec 8) (arg : BitVec 24) : fieldArg (commandWord opc arg) = arg :=
  BitVec.eq_of_toNat_eq (by rw [fieldArg_toNat, argNat_commandWord])

/-- A word is put together again from its two fields (rule R71). -/
theorem commandWord_fields (w : CommandWord) : commandWord (fieldOpc w) (fieldArg w) = w := by
  refine BitVec.eq_of_toNat_eq ?_
  rw [commandWord_toNat, fieldOpc_toNat, fieldArg_toNat, opcNat, argNat]
  omega

/-! ### The argument of `PGEN` (rule R73) -/

theorem fieldSel_toNat (w : CommandWord) : (fieldSel w).toNat = argNat w % 16 := by
  simp only [fieldSel, argNat, BitVec.extractLsb'_toNat, Nat.shiftRight_eq_div_pow]
  omega

theorem setWidth_sel_toNat (sel : BitVec 4) : (sel.setWidth 24).toNat = sel.toNat :=
  BitVec.toNat_setWidth_of_le (by decide)

/-- The argument of a `PGEN` word is its selector exactly where the reserved bits are 0. -/
theorem fieldArg_eq_sel_iff {w : CommandWord} {sel : BitVec 4} :
    fieldArg w = sel.setWidth 24 ↔ fieldPgenReserved w = 0 ∧ fieldSel w = sel := by
  have := sel.isLt
  simp only [← BitVec.toNat_inj, fieldArg_toNat, fieldPgenReserved_toNat, fieldSel_toNat, setWidth_sel_toNat,
    BitVec.ofNat_eq_ofNat, BitVec.toNat_zero]
  omega

/-! ### The decoder and the encoder -/

/-- The operand words of a command encoded with them are those its word asks for (rule R77). -/
theorem decode_commandWord {opc : BitVec 8} {arg : BitVec 24} {burst : List OpWord}
    (hlen : burst.length = operandWords (commandWord opc arg)) :
    decode (.command (commandWord opc arg) burst) = decodeOpcode (commandWord opc arg) burst :=
  if_pos hlen

/-- Settles O1: the two words with an argument have the fields they were put together from, and every other word is
fixed and evaluates. -/
theorem decodeOfEncodeIsTheInstruction : Obligations.DecodeOfEncodeIsTheInstruction := by
  intro i hwf
  cases i with
  | pseq n burst =>
    have hlen : burst.length = n.toNat := by simpa [Instr.wf] using hwf
    have hwords : operandWords (commandWord 0x01#8 n) = n.toNat := by simp [operandWords]
    rw [encode, decode_commandWord (hlen.trans hwords.symm)]
    simp [decodeOpcode]
  | pgen sel =>
    obtain ⟨hres, hsel⟩ := fieldArg_eq_sel_iff.mp (fieldArg_commandWord 0x02#8 (sel.setWidth 24))
    rw [encode, decode_commandWord (by simp [operandWords])]
    simp [decodeOpcode, hres, hsel]
  | _ => rfl

/-! ### Every command word (30_encoding.md rule R89) -/

/-- The number of operand words, in numbers (rule R77). -/
theorem operandWords_eq (w : CommandWord) :
    operandWords w = if opcNat w = 1 then argNat w else if opcNat w = 5 ∧ argNat w = 0 then 1 else 0 := by
  have hpseq : fieldOpc w = 0x01#8 ↔ opcNat w = 1 := fieldOpc_eq_iff (by decide)
  have hpush : fieldOpc w = 0x05#8 ↔ opcNat w = 5 := fieldOpc_eq_iff (by decide)
  simp only [operandWords, hpseq, hpush, fieldArg_eq_zero_iff, fieldArg_toNat]

theorem eq_commandWord {w : CommandWord} {k : Nat} (hk : k < 2 ^ 8) (hopc : opcNat w = k) :
    w = commandWord (BitVec.ofNat 8 k) (BitVec.ofNat 24 (argNat w)) := by
  rw [← (fieldOpc_eq_iff hk).mpr hopc, ← fieldArg_toNat, BitVec.ofNat_toNat, BitVec.setWidth_eq, commandWord_fields]

/-- The legal words by opcode (rules R72, R73 and R75). -/
theorem legalWord_iff {w : CommandWord} : ¬ IllegalWord w ↔
    opcNat w = 1 ∨ (opcNat w = 2 ∧ argNat w < 16) ∨ (opcNat w = 5 ∧ argNat w = 0) ∨
      (argNat w = 0 ∧
        (opcNat w = 3 ∨ opcNat w = 4 ∨ opcNat w = 6 ∨ opcNat w = 7 ∨ opcNat w = 8 ∨ opcNat w = 9)) := by
  omega

/-- The commands without any argument, by opcode. -/
theorem exists_bareCommandOf {w : CommandWord} (harg : argNat w = 0)
    (hopc : opcNat w = 3 ∨ opcNat w = 4 ∨ opcNat w = 6 ∨ opcNat w = 7 ∨ opcNat w = 8 ∨ opcNat w = 9) :
    ∃ i, CommandOf w [] i ∧ encode i = .command w [] ∧ i.wf = true := by
  have hword : w = commandWord (BitVec.ofNat 8 (opcNat w)) 0 := by
    simpa [harg] using eq_commandWord (by omega) (rfl : opcNat w = opcNat w)
  rcases hopc with h | h | h | h | h | h <;> rw [h] at hword
  · exact ⟨.bind, by simp [CommandOf, h], by rw [hword]; rfl, rfl⟩
  · exact ⟨.reset, by simp [CommandOf, h], by rw [hword]; rfl, rfl⟩
  · exact ⟨.destroy, by simp [CommandOf, h], by rw [hword]; rfl, rfl⟩
  · exact ⟨.info, by simp [CommandOf, h], by rw [hword]; rfl, rfl⟩
  · exact ⟨.rdlast, by simp [CommandOf, h], by rw [hword]; rfl, rfl⟩
  · exact ⟨.pdestroy, by simp [CommandOf, h], by rw [hword]; rfl, rfl⟩

/-- Every legal word with the operand words it asks for is the words of its command. -/
theorem exists_commandOf {w : CommandWord} {burst : List OpWord} (hw : ¬ IllegalWord w)
    (hlen : burst.length = operandWords w) :
    ∃ i, CommandOf w burst i ∧ encode i = .command w burst ∧ i.wf = true := by
  rw [operandWords_eq] at hlen
  obtain hopc | ⟨hopc, hsel⟩ | ⟨hopc, harg⟩ | ⟨harg, hopc⟩ := legalWord_iff.mp hw
  · rw [if_pos hopc] at hlen
    refine ⟨_, .inl ⟨hopc, rfl⟩, ?_, ?_⟩
    · rw [encode, ← eq_commandWord (by decide) hopc]
    · simp [Instr.wf, hlen, argNat]
  · obtain rfl : burst = [] := by simpa [hopc] using hlen
    have harg : (BitVec.ofNat 4 (argNat w)).setWidth 24 = BitVec.ofNat 24 (argNat w) := by
      refine BitVec.eq_of_toNat_eq ?_
      rw [setWidth_sel_toNat, BitVec.toNat_ofNat, BitVec.toNat_ofNat]
      omega
    refine ⟨_, .inr (.inl ⟨hopc, rfl, rfl⟩), ?_, rfl⟩
    rw [encode, harg, ← eq_commandWord (by decide) hopc]
  · obtain ⟨op, rfl⟩ : ∃ op, burst = [op] := List.length_eq_one_iff.mp (by simpa [hopc, harg] using hlen)
    have hword : w = commandWord 0x05#8 0 := by simpa [harg] using eq_commandWord (by decide) hopc
    exact ⟨.push op, by simp [CommandOf, hopc], by rw [hword, encode], rfl⟩
  · obtain rfl : burst = [] := by
      rw [if_neg (by omega), if_neg (by omega)] at hlen
      exact List.length_eq_zero_iff.mp hlen
    exact exists_bareCommandOf harg hopc

theorem burst_eq_nil_of_illegalWord {w : CommandWord} {burst : List OpWord} (hw : IllegalWord w)
    (hlen : burst.length = operandWords w) : burst = [] :=
  List.length_eq_zero_iff.mp (hlen.trans (operandWords_of_illegalWord hw))

/-- Settles O3: an illegal word raises, and every other word decodes to the command whose words it is. -/
theorem everyCommandWordIsACommandOrRaises : Obligations.EveryCommandWordIsACommandOrRaises := by
  intro s w burst rest hin hlen
  refine ⟨fun hw => ?_, fun hw => ?_⟩
  · obtain rfl := burst_eq_nil_of_illegalWord hw hlen
    exact ⟨rfl, by rw [step_of_illegalWord hw hin, State.raise_eq_raisedState]; rfl⟩
  · obtain ⟨i, hof, henc, hwf⟩ := exists_commandOf hw hlen
    exact ⟨i, hof, step_of_decode hin (henc ▸ decodeOfEncodeIsTheInstruction i hwf)⟩

/-! ### What decodes -/

theorem decode_of_wrong_count {w : CommandWord} {burst : List OpWord} (h : burst.length ≠ operandWords w) :
    decode (.command w burst) = .error .operandCount :=
  if_neg h

/-- A command transaction that decodes has a legal word and the operand words it asks for. -/
theorem legal_of_decode {w : CommandWord} {burst : List OpWord} {i : Instr}
    (h : decode (.command w burst) = .ok i) : ¬ IllegalWord w ∧ burst.length = operandWords w := by
  have hlen : burst.length = operandWords w := by
    by_contra hne
    rw [decode_of_wrong_count hne] at h
    cases h
  refine ⟨fun hw => ?_, hlen⟩
  obtain rfl := burst_eq_nil_of_illegalWord hw hlen
  rcases decode_illegalWord hw with hd | hd <;> rw [hd] at h <;> cases h

/-- What a micro-operation word can be: the word of one micro-operation with its operands, or refused (rule R83). -/
theorem decodeMicro_cases (w : MicroWord) (args : List MicroArg) :
    (∃ i, decodeMicro w args = .ok i ∧ encode i = .micro w args ∧ i.wf = true) ∨
      decodeMicro w args = .error .reservedMicro ∨ decodeMicro w args = .error .microOperands := by
  unfold decodeMicro
  split
  case h_11 => exact .inr (.inl rfl)
  all_goals
    split
    · exact .inl ⟨_, rfl, rfl, rfl⟩
    · exact .inr (.inr rfl)

/-- Settles O2: a legal command word is the words of its command, and that is what it decodes to; a micro-operation
word by its row. -/
theorem encodeOfDecodeIsTheTransaction : Obligations.EncodeOfDecodeIsTheTransaction := by
  intro t i h
  have decodes_to : (∃ j, encode j = t ∧ j.wf = true) → encode i = t ∧ i.wf = true := by
    rintro ⟨j, rfl, hwf⟩
    obtain rfl : j = i := by simpa using (decodeOfEncodeIsTheInstruction j hwf).symm.trans h
    exact ⟨rfl, hwf⟩
  cases t with
  | command w burst =>
    obtain ⟨hw, hlen⟩ := legal_of_decode h
    obtain ⟨j, _, henc, hwf⟩ := exists_commandOf hw hlen
    exact decodes_to ⟨j, henc, hwf⟩
  | micro w args =>
    obtain ⟨j, _, henc, hwf⟩ | hd | hd := decodeMicro_cases w args
    · exact decodes_to ⟨j, henc, hwf⟩
    · cases hd.symm.trans h
    · cases hd.symm.trans h

/-- A command with another number of operand words than its word asks for is refused (rule R77). -/
theorem step_of_wrong_count {s : State} {w : CommandWord} {burst : List OpWord} {rest : List Input}
    (hin : s.input = .transaction (.command w burst) :: rest) (h : burst.length ≠ operandWords w) :
    step s = .refused .operandCount := by
  simp [step, fetch_of_transaction hin, fetchTransaction, decode_of_wrong_count h]

/-- A command that is taken leaves the inputs after it. -/
theorem input_of_step_command {s t : State} {w : CommandWord} {burst : List OpWord} {rest : List Input}
    (hin : s.input = .transaction (.command w burst) :: rest) (h : step s = .next t) : t.input = rest := by
  obtain ⟨hnil, _⟩ | ⟨_, hreset, _⟩ | ⟨_, _, _, hcmd, _, rfl⟩ | ⟨_, _, i, hcmd, hd, hx⟩ := step_next h
  · cases hin.symm.trans hnil
  · cases hin.symm.trans hreset
  · cases hin.symm.trans hcmd
    rfl
  · cases hin.symm.trans hcmd
    exact command_keeps_input (isCommand_of_decode_command hd) hx

/-- Settles O4: the framing check stands before every command, and a command that is taken leaves the inputs after its
own. -/
theorem operandWordsFollowFromTheWord : Obligations.OperandWordsFollowFromTheWord := by
  intro s w burst rest hin
  refine ⟨operandWords_eq w, step_of_wrong_count hin, fun t h => ⟨?_, input_of_step_command hin h⟩⟩
  by_contra hne
  cases (step_of_wrong_count hin hne).symm.trans h

/-! ### Sample words and reserved micro-operation words -/

/-- Settles O5: each word evaluated. -/
theorem sampleWordsDecode : Obligations.SampleWordsDecode := by
  refine ⟨?pseq, ?pgen, ?bind, ?push, ?info, ?bsbCorr, ?sgCreate⟩ <;> decide

/-- The rows of rule R83 are 0x10 to 0x14 and 0x20 to 0x24. -/
theorem decodeMicro_of_reserved {w : MicroWord} (args : List MicroArg)
    (hw : w.toNat / 16 = 0 ∨ 3 ≤ w.toNat / 16 ∨ 5 ≤ w.toNat % 16) :
    decodeMicro w args = .error .reservedMicro := by
  unfold decodeMicro
  split
  case h_11 => rfl
  all_goals exact absurd hw (by decide)

theorem step_of_decodeMicro_error {s : State} {w : MicroWord} {args : List MicroArg} {rest : List Input}
    (hin : s.input = .transaction (.micro w args) :: rest) :
    (decodeMicro w args = .error .reservedMicro → step s = .refused .reservedMicro) ∧
    (decodeMicro w args = .error .microOperands → step s = .refused .microOperands) := by
  constructor <;> intro hd <;> simp [step, fetch_of_transaction hin, fetchTransaction, decode, hd]

/-- Settles O7: a micro-operation word is refused unless it is the word of an instruction with its operands. -/
theorem reservedMicroWordsAreRefused : Obligations.ReservedMicroWordsAreRefused := by
  intro s w args rest hin
  obtain ⟨hreserved, hoperands⟩ := step_of_decodeMicro_error hin
  refine ⟨fun hno => ?_, fun hw => hreserved (decodeMicro_of_reserved args hw)⟩
  obtain ⟨i, _, henc, _⟩ | hd | hd := decodeMicro_cases w args
  · exact absurd henc (hno i)
  · exact .inl (hreserved hd)
  · exact .inr (hoperands hd)

/-! ### Hard decisions (30_encoding.md rules R79 to R81) -/

/-- Settles O32: a number that is not negative and not 0 is positive. -/
theorem hardDecisionInBits : Obligations.HardDecisionInBits := by
  intro n x
  have hpos : hd x = true ↔ 0 < x.toInt := decide_eq_true_iff
  have hsign : x.msb = false ↔ ¬ x.toInt < 0 := by rw [BitVec.msb_eq_toInt, decide_eq_false_iff_not]
  have hzero : x = 0 ↔ x.toInt = 0 := by rw [← BitVec.toInt_inj]; simp
  refine ⟨?_, hpos⟩
  rw [hpos, hsign, ne_eq, hzero]
  omega

/-- An operation has an effect only where its rail exists. -/
theorem ifExists_congr {present : Bool} {r : Option Rail} {op op' : Except Refusal (Option Rail)}
    (h : present = true → op = op') : ifExists present r op = ifExists present r op' := by
  cases present with
  | false => rfl
  | true => exact h rfl

theorem push_congr {s : State} {op op' : OpWord} (hI : hdI s.cfg.sw op = hdI s.cfg.sw op')
    (hQ : symbolComplex s.cfg.cls = true → hdQ s.cfg.sw op = hdQ s.cfg.sw op') :
    exec (.push op) s = exec (.push op') s := by
  have hrxQ : ifExists (symbolComplex s.cfg.cls) s.rxQ (some <$> bsbPush s.rxQ (hdQ s.cfg.sw op)) =
      ifExists (symbolComplex s.cfg.cls) s.rxQ (some <$> bsbPush s.rxQ (hdQ s.cfg.sw op')) :=
    ifExists_congr fun hc => by rw [hQ hc]
  rw [exec, exec, execPush, execPush, hI, hrxQ]

theorem pseq_congr {s : State} {n : BitVec 24} {b b' : List OpWord}
    (hI : b.map (hdI s.cfg.sw) = b'.map (hdI s.cfg.sw))
    (hQ : patternComplex s.cfg.cls = true → b.map (hdQ s.cfg.sw) = b'.map (hdQ s.cfg.sw)) :
    exec (.pseq n b) s = exec (.pseq n b') s := by
  have hlen : b.length = b'.length := by simpa using congrArg List.length hI
  have hrefQ : ifExists (patternComplex s.cfg.cls) s.refQ (some <$> railOf s.cfg.nmax (b.map (hdQ s.cfg.sw))) =
      ifExists (patternComplex s.cfg.cls) s.refQ (some <$> railOf s.cfg.nmax (b'.map (hdQ s.cfg.sw))) :=
    ifExists_congr fun hc => by rw [hQ hc]
  have hbuild : buildExplicit n b s = buildExplicit n b' s := by
    rw [buildExplicit, buildExplicit, hI, hrefQ]
  rw [exec, exec, execPseq, execPseq, hlen, hbuild]

theorem symbolComplex_iff {c : CorrClass} : symbolComplex c = true ↔ c ≠ .rr := by
  cases c <;> simp [symbolComplex]

theorem patternComplex_iff {c : CorrClass} : patternComplex c = true ↔ c = .cc := by
  cases c <;> simp [patternComplex]

/-- Settles O33: both commands read their operands through the hard decisions of the rails of the class. -/
theorem onlyUsedHardDecisionsMatter : Obligations.OnlyUsedHardDecisionsMatter :=
  ⟨fun _ _ _ hI hQ => push_congr hI fun hc => hQ (symbolComplex_iff.mp hc),
   fun _ _ _ _ hI hQ => pseq_congr hI fun hc => hQ (patternComplex_iff.mp hc)⟩

/-! ### Samples and assembly (30_encoding.md rules R78 and R90) -/

/-- The two components stand side by side in the operand word. -/
theorem complexSample_toNat {sw : Nat} (hsw : sw ≤ 32) (x y : Int) :
    (complexSample sw x y).toNat = (BitVec.ofInt sw x).toNat + (BitVec.ofInt sw y).toNat * 2 ^ sw := by
  have hx : ((BitVec.ofInt sw x).setWidth 64).toNat = (BitVec.ofInt sw x).toNat :=
    BitVec.toNat_setWidth_of_le (by omega)
  rw [complexSample, toNat_or_field _ (by omega) (hx.trans_lt (BitVec.isLt _)), hx]

theorem compI_complexSample {sw : Nat} (hsw : sw ≤ 32) (x y : Int) :
    compI sw (complexSample sw x y) = BitVec.ofInt sw x := by
  rw [compI, extractLsb'_eq_iff, complexSample_toNat hsw, Nat.pow_zero, Nat.div_one, Nat.add_mul_mod_self_right,
    Nat.mod_eq_of_lt (BitVec.isLt _)]

theorem compQ_complexSample {sw : Nat} (hsw : sw ≤ 32) (x y : Int) :
    compQ sw (complexSample sw x y) = BitVec.ofInt sw y := by
  rw [compQ, extractLsb'_eq_iff, complexSample_toNat hsw, Nat.add_mul_div_right _ _ (Nat.two_pow_pos sw),
    Nat.div_eq_of_lt (BitVec.isLt _), Nat.zero_add, Nat.mod_eq_of_lt (BitVec.isLt _)]

/-- The wires above the port are 0. -/
theorem complexSample_lt {sw : Nat} (hsw : sw ≤ 32) (x y : Int) :
    (complexSample sw x y).toNat < 2 ^ (2 * sw) := by
  have hx := (BitVec.ofInt sw x).isLt
  have hy := (BitVec.ofInt sw y).isLt
  rw [complexSample_toNat hsw]
  calc (BitVec.ofInt sw x).toNat + (BitVec.ofInt sw y).toNat * 2 ^ sw
      < ((BitVec.ofInt sw y).toNat + 1) * 2 ^ sw := by rw [Nat.add_mul]; omega
    _ ≤ 2 ^ sw * 2 ^ sw := Nat.mul_le_mul_right _ hy
    _ = 2 ^ (2 * sw) := by rw [Nat.two_mul, Nat.pow_add]

theorem fits_iff {sw : Nat} {x : Int} : fits sw x = true ↔ -(2 ^ (sw - 1) : Int) ≤ x ∧ x < 2 ^ (sw - 1) :=
  decide_eq_true_iff

/-- A number that fits a component is read back from it. -/
theorem toInt_ofInt_of_fits {sw : Nat} {x : Int} (hsw : 2 ≤ sw) (hx : fits sw x = true) :
    (BitVec.ofInt sw x).toInt = x := by
  obtain ⟨hlow, hhigh⟩ := fits_iff.mp hx
  exact BitVec.toInt_ofInt_eq_self (by omega) hlow hhigh

/-- A real sample that fits is an operand word with its number in `I` and 0 in `Q`, and no other real sample is. -/
theorem assembleSample_real {sw : Nat} (x : Int) (hlow : 2 ≤ sw) (hsw : sw ≤ 32) :
    (fits sw x = true → ∃ w, assembleSample sw false (.real x) = some w ∧
      (compI sw w).toInt = x ∧ compQ sw w = 0 ∧ w.toNat < 2 ^ (2 * sw)) ∧
    (¬ fits sw x = true → assembleSample sw false (.real x) = none) := by
  refine ⟨fun hx => ⟨realSample sw x, ?_, ?_, compQ_complexSample hsw x 0, complexSample_lt hsw x 0⟩, fun hx => ?_⟩
  · simp [assembleSample, hx]
  · rw [realSample, compI_complexSample hsw, toInt_ofInt_of_fits hlow hx]
  · simp [assembleSample, hx]

/-- A complex sample that fits is an operand word with its two numbers, and no other complex sample is. -/
theorem assembleSample_complex {sw : Nat} (x y : Int) (hlow : 2 ≤ sw) (hsw : sw ≤ 32) :
    (fits sw x = true ∧ fits sw y = true → ∃ w, assembleSample sw true (.complex x y) = some w ∧
      (compI sw w).toInt = x ∧ (compQ sw w).toInt = y ∧ w.toNat < 2 ^ (2 * sw)) ∧
    (¬ (fits sw x = true ∧ fits sw y = true) → assembleSample sw true (.complex x y) = none) := by
  refine ⟨fun ⟨hx, hy⟩ => ⟨complexSample sw x y, ?_, ?_, ?_, complexSample_lt hsw x y⟩, fun hxy => ?_⟩
  · simp [assembleSample, hx, hy]
  · rw [compI_complexSample hsw, toInt_ofInt_of_fits hlow hx]
  · rw [compQ_complexSample hsw, toInt_ofInt_of_fits hlow hy]
  · simpa [assembleSample] using hxy

/-- The samples of a vector become operand words one by one, in order. -/
theorem assembleSamples_eq_some {sw : Nat} {k : Bool} {xs : List Sample} {b : List OpWord} :
    assembleSamples sw k xs = some b ↔ List.Forall₂ (fun x w => assembleSample sw k x = some w) xs b := by
  induction xs generalizing b with
  | nil => simp [assembleSamples, eq_comm]
  | cons x xs ih =>
    simp only [assembleSamples, List.forall₂_cons_left_iff, ← ih, Option.bind_eq_bind, Option.bind_eq_some_iff,
      Option.pure_def, Option.some.injEq]
    exact ⟨fun ⟨w, hw, ws, hws, hb⟩ => ⟨w, ws, hw, hws, hb.symm⟩,
      fun ⟨w, ws, hw, hws, hb⟩ => ⟨w, hw, ws, hws, hb.symm⟩⟩

theorem assembleVector_eq_some {c : Config} {n : BitVec 24} {xs : List Sample} {b : List OpWord} :
    assembleVector c n xs = some b ↔ b.length = n.toNat ∧
      List.Forall₂ (fun x w => assembleSample c.sw (patternComplex c.cls) x = some w) xs b := by
  rw [assembleVector]
  constructor
  · split
    · rename_i hlen
      intro h
      have hall := assembleSamples_eq_some.mp h
      exact ⟨hall.length_eq.symm.trans hlen, hall⟩
    · exact nofun
  · rintro ⟨hlen, hall⟩
    rw [if_pos (hall.length_eq.trans hlen), assembleSamples_eq_some]
    exact hall

theorem assemble_pseq {c : Config} {n : BitVec 24} {xs : List Sample} {is : List Instr} :
    assemble c (.pseq n xs) = some is ↔ ∃ b, assembleVector c n xs = some b ∧ is = [.pseq n b] := by
  simp [assemble, eq_comm]

theorem assemble_push {c : Config} {x : Sample} {is : List Instr} :
    assemble c (.push x) = some is ↔
      ∃ w, assembleSample c.sw (symbolComplex c.cls) x = some w ∧ is = [.push w] := by
  simp [assemble, eq_comm]

theorem assemble_openSeq {c : Config} {n : BitVec 24} {xs : List Sample} {is : List Instr} :
    assemble c (.openSeq n xs) = some is ↔
      ∃ b, assembleVector c n xs = some b ∧ is = [.pseq n b, .bind] := by
  simp [assemble, openSeq, eq_comm]

/-- A line assembles to well-formed host commands only. -/
theorem assemble_wf_command {c : Config} {l : AsmLine} {is : List Instr} (h : assemble c l = some is) :
    ∀ i ∈ is, i.wf = true ∧ i.isCommand = true := by
  have pseq_wf : ∀ {n : BitVec 24} {xs : List Sample} {b : List OpWord}, assembleVector c n xs = some b →
      (Instr.pseq n b).wf = true := fun hb => by simpa [Instr.wf] using (assembleVector_eq_some.mp hb).1
  cases l with
  | pseq n xs =>
    obtain ⟨b, hb, rfl⟩ := assemble_pseq.mp h
    simpa [Instr.isCommand] using pseq_wf hb
  | openSeq n xs =>
    obtain ⟨b, hb, rfl⟩ := assemble_openSeq.mp h
    simpa [Instr.isCommand, Instr.wf] using pseq_wf hb
  | push x =>
    obtain ⟨w, _, rfl⟩ := assemble_push.mp h
    simp [Instr.isCommand, Instr.wf]
  | openGen k => cases h; simp [openGen, Instr.isCommand, Instr.wf]
  | _ => cases h; simp [Instr.isCommand, Instr.wf]

/-- A command word as a sum: the opcode's number in the top digits, and the argument. -/
theorem commandWord_eq_add (opc : BitVec 8) (arg : BitVec 24) :
    commandWord opc arg = BitVec.ofNat 32 (opc.toNat * 2 ^ 24) + arg.setWidth 32 := by
  have := arg.isLt
  have := opc.isLt
  refine BitVec.eq_of_toNat_eq ?_
  rw [commandWord_toNat, BitVec.toNat_add, BitVec.toNat_ofNat, BitVec.toNat_setWidth]
  omega

/-- The words with an argument, as sums (rules R72 and R73). -/
theorem encode_as_sum (n : BitVec 24) (b : List OpWord) (k : BitVec 4) :
    encode (.pseq n b) = .command (0x01000000#32 + n.setWidth 32) b ∧
    encode (.pgen k) = .command (0x02000000#32 + k.setWidth 32) [] := by
  refine ⟨by rw [encode, commandWord_eq_add]; rfl, ?_⟩
  have hk : (k.setWidth 24).setWidth 32 = k.setWidth 32 := BitVec.setWidth_setWidth (by decide)
  rw [encode, commandWord_eq_add, hk]
  rfl

/-- Settles O34: sample by sample, line by line, and the words of the lines' commands. -/
theorem assemblyDeliversTheSamples : Obligations.AssemblyDeliversTheSamples := by
  refine ⟨fun sw x hlow hsw => ?realSamples, fun sw x y hlow hsw => ?complexSamples, fun _ _ _ => ⟨rfl, rfl⟩,
    fun _ _ _ => assemble_push, fun c n xs is => ?pseqLine, fun c n xs is => ?openSeqLine,
    fun _ _ => ⟨rfl, rfl⟩, fun _ => rfl, fun _ => rfl, rfl, fun n b k w => ?wordsWithArgument, rfl,
    fun _ _ _ => assemble_wf_command⟩
  case realSamples => simpa only [fits_iff] using assembleSample_real x hlow hsw
  case complexSamples => simpa only [fits_iff] using assembleSample_complex x y hlow hsw
  case pseqLine =>
    simp only [assemble_pseq, assembleVector_eq_some]
    exact exists_congr fun _ => and_assoc.trans (and_congr_right fun _ => and_comm)
  case openSeqLine => simp [assemble_openSeq, assemble_pseq]
  case wordsWithArgument =>
    obtain ⟨hpseq, hpgen⟩ := encode_as_sum n b k
    exact ⟨hpseq, hpgen, rfl⟩

/-! ### INFO (30_encoding.md rule R88) -/

theorem infoI_toNat (s : State) : (infoI s).toNat = s.pn.toNat :=
  BitVec.toNat_setWidth_of_le (by decide)

/-- `VAL_Q` of `INFO` as a number: every code at its place. -/
theorem infoQ_toNat (s : State) :
    (infoQ s).toNat = (lcCode s.lc).toNat + (classCode s.cfg.cls).toNat * 2 ^ 2 + (pathCode s.path).toNat * 2 ^ 4 +
      (BitVec.ofBool s.lastV).toNat * 2 ^ 5 + s.errlog.toNat * 2 ^ 8 := by
  have hlc := (lcCode s.lc).isLt
  have hcls := (classCode s.cfg.cls).isLt
  have hpath := (pathCode s.path).isLt
  have hlast := (BitVec.ofBool s.lastV).isLt
  have e0 : ((lcCode s.lc).setWidth 32).toNat = (lcCode s.lc).toNat := BitVec.toNat_setWidth_of_le (by decide)
  have e2 := toNat_or_field (k := 2) (classCode s.cfg.cls) (by decide) (e0.trans_lt hlc)
  have e4 := toNat_or_field (k := 4) (pathCode s.path) (by decide) (e2.trans_lt (by omega))
  have e5 := toNat_or_field (k := 5) (BitVec.ofBool s.lastV) (by decide) (e4.trans_lt (by omega))
  have e8 := toNat_or_field (k := 8) s.errlog (by decide) (e5.trans_lt (by omega))
  rw [infoQ, e8, e5, e4, e2, e0]

/-- Settles O22: the two values are numbers with the codes as digits, and a field reads its digit. -/
theorem infoReportsEveryField : Obligations.InfoReportsEveryField := by
  refine ⟨rfl, fun s => ⟨_, rfl, rfl, ?_⟩⟩
  have hlc := (lcCode s.lc).isLt
  have hcls := (classCode s.cfg.cls).isLt
  have hpath := (pathCode s.path).isLt
  have hlast := (BitVec.ofBool s.lastV).isLt
  have herr := s.errlog.isLt
  have hpn := s.pn.isLt
  have hI := infoI_toNat s
  have hQ := infoQ_toNat s
  have pnField : (infoI s).extractLsb' 0 24 = s.pn := extractLsb'_eq_iff.mpr (by omega)
  have aboveIsZero : (infoI s).extractLsb' 24 8 = 0 := extractLsb'_eq_zero_iff.mpr (by omega)
  have lcField : (infoQ s).extractLsb' 0 2 = lcCode s.lc := extractLsb'_eq_iff.mpr (by omega)
  have classField : (infoQ s).extractLsb' 2 2 = classCode s.cfg.cls := extractLsb'_eq_iff.mpr (by omega)
  have pathField : (infoQ s).extractLsb' 4 1 = pathCode s.path := extractLsb'_eq_iff.mpr (by omega)
  have lastField : (infoQ s).extractLsb' 5 1 = BitVec.ofBool s.lastV := extractLsb'_eq_iff.mpr (by omega)
  have betweenIsZero : (infoQ s).extractLsb' 6 2 = 0 := extractLsb'_eq_zero_iff.mpr (by omega)
  have errField : (infoQ s).extractLsb' 8 5 = s.errlog := extractLsb'_eq_iff.mpr (by omega)
  have topIsZero : (infoQ s).extractLsb' 13 19 = 0 := extractLsb'_eq_zero_iff.mpr (by omega)
  refine ⟨pnField, aboveIsZero, lcField.trans ?_, classField.trans ?_, pathField.trans ?_, lastField.trans ?_,
    betweenIsZero, errField, topIsZero⟩
  · cases s.lc <;> rfl
  · cases s.cfg.cls <;> rfl
  · cases s.path <;> rfl
  · cases s.lastV <;> rfl

/-! ### BSB.CREATE (40_bitbuffer.md rule R102) -/

theorem bsbCreate_eq_error {nmax len : Nat} {r : Refusal} :
    bsbCreate nmax len = .error r ↔ ¬ (1 ≤ len ∧ len ≤ nmax) ∧ r = .railLength := by
  unfold bsbCreate
  split <;> simp_all [eq_comm]

theorem onRail_of_exists {s : State} {n : RailName} {body : Except Refusal State}
    (hn : railExists s.cfg.cls n = true) : onRail s n body = body := by
  simp [onRail, hn]

/-- Settles O35: on a rail of the class the operation is the creation alone. -/
theorem bsbCreateMakesZeros : Obligations.BsbCreateMakesZeros := by
  intro s n len hn
  refine ⟨rfl, fun hpos hmax => ?_, fun hlen => ?_⟩
  · rw [exec, execBsbCreate, onRail_of_exists hn, toOutcome_eq_next]
    exact except_bind_eq_ok.mpr ⟨_, bsbCreate_eq_ok.mpr ⟨⟨hpos, hmax⟩, rfl⟩, rfl⟩
  · rw [exec, execBsbCreate, onRail_of_exists hn, bsbCreate_eq_error.mpr ⟨by omega, rfl⟩]
    rfl

end Sys2Proof.Machine

/-! ## The bit buffer: its micro-operations, the laws of the correlation, and runs of pushes

The content of a rail after any number of pushes has one closed form, the old content followed by the new bits with as
many elements dropped as bits were pushed. What a run of `PUSH` commands ends with follows from it, the window being
the symbols' own hard decisions once they fill the rail. -/

namespace Sys2Proof.Machine

/-! ### The content of a rail after pushes (40_bitbuffer.md rules R104 and R105) -/

theorem foldl_railPush : ∀ (bits : List Bool) (r : Rail),
    bits.foldl railPush r = (r ++ bits).drop bits.length
  | [], r => by simp
  | b :: bits, [] => by simp [railPush, foldl_railPush bits]
  | b :: bits, a :: r => by simp [railPush, foldl_railPush bits]

/-- Settles O43: by the closed form, in which the old content is gone or has lost as many elements as were pushed. -/
theorem pushesSlideTheWindow : Obligations.PushesSlideTheWindow := by
  intro r bits
  rw [foldl_railPush, List.drop_append]
  refine ⟨fun hlong => ?_, fun hshort => ?_⟩
  · rw [List.drop_eq_nil_of_le hlong, List.nil_append]
  · rw [Nat.sub_eq_zero_of_le hshort.le, List.drop_zero]

theorem foldl_railPush_of_length_le {r : Rail} {bits : List Bool} (h : r.length ≤ bits.length) :
    bits.foldl railPush r = bits.drop (bits.length - r.length) :=
  (pushesSlideTheWindow r bits).1 h

theorem railPush_getElem?_of_lt {r : Rail} {i : Nat} (b : Bool) (h : i + 1 < r.length) :
    (railPush r b)[i]? = r[i + 1]? := by
  cases r with
  | nil => cases h
  | cons a r => exact List.getElem?_append_left (by simpa using h)

theorem railPush_getElem?_newest {r : Rail} (b : Bool) (h : r ≠ []) : (railPush r b)[r.length - 1]? = some b := by
  cases r with
  | nil => exact absurd rfl h
  | cons a r => exact List.getElem?_concat_length

/-! ### The elementary correlation (40_bitbuffer.md rules R106 and R110) -/

theorem corr_eq_agreement : ∀ a b : Rail, a.length = b.length → corr a b = agreement a b
  | [], [], _ => rfl
  | x :: a, y :: b, h => by
    have ih := corr_eq_agreement a b (by simpa using h)
    simp only [corr, ih, agreement, hamming, List.length_cons]
    split <;> omega

theorem sum_agreements_eq_corr : ∀ a b : Rail,
    ((a.zip b).map fun p => if p.1 = p.2 then (1 : Int) else -1).sum = corr a b
  | [], _ => rfl
  | _ :: _, [] => rfl
  | _ :: a, _ :: b => by simp [corr, sum_agreements_eq_corr a b]

theorem corr_range {a b : Rail} (h : a.length = b.length) : -(a.length : Int) ≤ corr a b ∧ corr a b ≤ a.length := by
  obtain ⟨hle, _⟩ := corr_natAbs_le_and_parity a b h
  omega

theorem corr_comm : ∀ a b : Rail, corr a b = corr b a
  | [], [] => rfl
  | [], _ :: _ => rfl
  | _ :: _, [] => rfl
  | x :: a, y :: b => by simp only [corr, corr_comm a b, eq_comm (a := x)]

theorem corr_self : ∀ a : Rail, corr a a = a.length
  | [] => rfl
  | _ :: a => by
    rw [corr, if_pos rfl, corr_self a, List.length_cons]
    omega

/-- The correlation is full only if no index disagrees. -/
theorem eq_of_corr_eq_length : ∀ a b : Rail, a.length = b.length → corr a b = a.length → a = b
  | [], [], _, _ => rfl
  | x :: a, y :: b, h, hfull => by
    have hlen : a.length = b.length := by simpa using h
    have hmax := (corr_range hlen).2
    simp only [corr, List.length_cons] at hfull
    split at hfull
    · next hxy => rw [hxy, eq_of_corr_eq_length a b hlen (by omega)]
    · omega

/-- Flipping one side of an index negates what it adds. -/
theorem agreement_sign_not : ∀ x y : Bool,
    (if x = !y then (1 : Int) else -1) = -(if x = y then 1 else -1) := by
  decide

theorem corr_map_not : ∀ a b : Rail, corr a (b.map not) = -corr a b
  | [], _ => rfl
  | _ :: _, [] => rfl
  | x :: a, y :: b => by
    rw [List.map_cons, corr, corr, corr_map_not a b, agreement_sign_not]
    omega

theorem corr_zeros : ∀ a : Rail, corr a (zeros a.length) = (a.length : Int) - 2 * (ones a : Int)
  | [] => rfl
  | x :: a => by
    have ih := corr_zeros a
    simp only [zeros, ones] at ih
    simp only [zeros, ones, List.length_cons, List.replicate_succ, corr, ih, List.count_cons]
    cases x <;> simp <;> omega

theorem corr_set_not : ∀ (a b : Rail) (k : Nat) (x y : Bool), a[k]? = some x → b[k]? = some y →
    corr a (b.set k (!y)) = corr a b + (if x = y then -2 else 2)
  | u :: a, v :: b, 0, x, y, hx, hy => by
    obtain rfl : u = x := by simpa using hx
    obtain rfl : v = y := by simpa using hy
    rw [List.set_cons_zero, corr, corr, agreement_sign_not]
    split <;> omega
  | u :: a, v :: b, k + 1, x, y, hx, hy => by
    rw [List.set_cons_succ, corr, corr, corr_set_not a b k x y hx hy, Int.add_assoc]

/-- Settles O41: each law by the recursion of the loop. -/
theorem correlationLaws : Obligations.CorrelationLaws := by
  intro a b h
  exact ⟨corr_range h, (corr_natAbs_le_and_parity a b h).2, corr_comm a b,
    ⟨eq_of_corr_eq_length a b h, fun hab => hab ▸ corr_self a⟩, corr_map_not a b, corr_zeros a⟩

/-- Settles O42: the loop adds the terms of the other indices unchanged. -/
theorem oneFlippedBitMovesTheCorrelationByTwo : Obligations.OneFlippedBitMovesTheCorrelationByTwo :=
  fun a b k x y _ => corr_set_not a b k x y

/-! ### The micro-operations (40_bitbuffer.md rules R104 to R109) -/

/-- On a rail of the class a micro-operation answers what its operation on the rail answers. -/
theorem onRail_next {s t : State} {n : RailName} {α : Type} {x : Except Refusal α} {a : α}
    {f : α → Except Refusal State} (hn : railExists s.cfg.cls n = true) (hx : x = .ok a) (hf : f a = .ok t) :
    toOutcome (onRail s n (x >>= f)) = .next t := by
  rw [onRail_of_exists hn, toOutcome_eq_next]
  exact except_bind_eq_ok.mpr ⟨a, hx, hf⟩

/-- On a rail of the class a micro-operation is refused where its operation on the rail is. -/
theorem onRail_refused {s : State} {n : RailName} {α : Type} {x : Except Refusal α} {r : Refusal}
    {f : α → Except Refusal State} (hn : railExists s.cfg.cls n = true) (hx : x = .error r) :
    toOutcome (onRail s n (x >>= f)) = .refused r := by
  rw [onRail_of_exists hn, hx]
  rfl

theorem bsbCorr_some {a b : Rail} (h : a.length = b.length) : bsbCorr (some a) (some b) = .ok (corr a b) :=
  if_pos h

theorem bsbCorr_unequal {a b : Rail} (h : a.length ≠ b.length) :
    bsbCorr (some a) (some b) = .error .unequalLengths :=
  if_neg h

theorem bsbCorr_none_right (p : Option Rail) : bsbCorr p none = .error .railNotLive := by
  cases p <;> rfl

/-- Settles O38: the rail of zeros is what as many pushes of 0 leave. -/
theorem bsbClearKeepsTheLength : Obligations.BsbClearKeepsTheLength := by
  intro s n r hn hr
  refine ⟨rfl, zeros r.length, onRail_next hn (bsbClear_eq_ok.mpr ⟨r, hr, rfl⟩) rfl, zeros_length _,
    fun b hb => List.eq_of_mem_replicate hb, ?_⟩
  rw [foldl_railPush_of_length_le (by simp)]
  simp [zeros]

/-- Settles O39: the operation empties the rail's place, and every operation on an empty place is refused. -/
theorem bsbDestroyEndsTheRail : Obligations.BsbDestroyEndsTheRail := by
  refine ⟨fun s n r hn hr => ⟨rfl, onRail_next hn (bsbDestroy_eq_ok.mpr ⟨⟨r, hr⟩, rfl⟩) rfl⟩,
    fun s n k b hn hk hdead => ⟨?push, ?clear, ?destroy, ?corrLeft, ?corrRight⟩⟩
  case push => exact onRail_refused hn (by rw [hdead]; rfl)
  case clear => exact onRail_refused hn (by rw [hdead]; rfl)
  case destroy => exact onRail_refused hn (by rw [hdead]; rfl)
  case corrLeft =>
    rw [exec, execBsbCorr, onRail_of_exists hn]
    exact onRail_refused hk (by rw [hdead]; rfl)
  case corrRight =>
    rw [exec, execBsbCorr, onRail_of_exists hk]
    exact onRail_refused hn (by rw [hdead, bsbCorr_none_right])

/-- Settles O36: the rail after the push, index by index. -/
theorem bsbPushShifts : Obligations.BsbPushShifts := by
  intro s n b r hn hr hne
  exact ⟨rfl, railPush r b, onRail_next hn (bsbPush_eq_ok.mpr ⟨r, hr, rfl⟩) rfl, railPush_length r b,
    fun _ hi => railPush_getElem?_of_lt b hi, railPush_getElem?_newest b hne⟩

/-- Settles O37: the loop's sum is the length minus twice the Hamming distance. -/
theorem bsbCorrCountsAgreement : Obligations.BsbCorrCountsAgreement := by
  intro s m n a b hm hn ha hb
  refine ⟨rfl, fun hlen => ?_, fun hne => ?_⟩
  · rw [← corr_eq_agreement a b hlen, exec, execBsbCorr, onRail_of_exists hm]
    exact ⟨onRail_next hn (by rw [ha, hb, bsbCorr_some hlen]) rfl, sum_agreements_eq_corr a b, corr_range hlen⟩
  · rw [exec, execBsbCorr, onRail_of_exists hm]
    exact onRail_refused hn (by rw [ha, hb, bsbCorr_unequal hne])

/-! ### Runs of `PUSH` (40_bitbuffer.md rule R105, 44_correlator.md rule R178) -/

/-- What pushing symbols from `s` to `t` does: the pattern stays, the hard decisions have gone into the window, and
the last push has scored the window that `t` holds. -/
structure PushedTo (s : State) (ops : List OpWord) (t : State) : Prop where
  cfg : t.cfg = s.cfg
  lc : t.lc = s.lc
  refI : t.refI = s.refI
  refQ : t.refQ = s.refQ
  rxI : t.rxI = s.rxI.map fun r : Rail => (ops.map (hdI s.cfg.sw)).foldl railPush r
  rxQ : t.rxQ = s.rxQ.map fun r : Rail => (ops.map (hdQ s.cfg.sw)).foldl railPush r
  scored : ∃ i q, accumulate s.cfg.cls s.refI s.refQ t.rxI t.rxQ = .ok (i, q) ∧
    t.last = some { i := BitVec.ofInt 26 i, q := BitVec.ofInt 26 q } ∧
    t.resp = some { status := .ok, valI := BitVec.ofInt 32 i, valQ := BitVec.ofInt 32 q }

theorem PushedTo.trans {s u t : State} {ops ops' : List OpWord} (h : PushedTo s ops u) (h' : PushedTo u ops' t) :
    PushedTo s (ops ++ ops') t where
  cfg := h'.cfg.trans h.cfg
  lc := h'.lc.trans h.lc
  refI := h'.refI.trans h.refI
  refQ := h'.refQ.trans h.refQ
  rxI := by simp [h'.rxI, h.rxI, h.cfg, Function.comp_def]
  rxQ := by simp [h'.rxQ, h.rxQ, h.cfg, Function.comp_def]
  scored := by simpa only [h.cfg, h.refI, h.refQ] using h'.scored

/-- Where a rail does not exist its place is empty, so an operation on it may be written without the condition. -/
theorem LiveIff.map_eq {f : Rail → Rail} {b : Bool} {p : Option Rail} {n : Nat} (h : LiveIff b p n) :
    (if b = true then p.map f else p) = p.map f := by
  cases b with
  | false => rw [h.eq_none rfl]; rfl
  | true => rfl

theorem step_of_push {s : State} {op : OpWord} {ops : List OpWord} (h : AtBoundary s) (hl : s.lc = .bound)
    (hin : s.input = pushInputs (op :: ops)) :
    ∃ t, step s = .next t ∧ PushedTo s [op] t ∧ t.input = pushInputs ops := by
  obtain ⟨t, ht⟩ := push_answers (op := op) (h.withInput (pushInputs ops))
  refine ⟨t, (step_of_decode hin (decodeOfEncodeIsTheInstruction _ rfl)).trans ht, ?_, command_keeps_input rfl ht⟩
  obtain ⟨hne, _⟩ | ⟨xi, rxQ, i, q, _, hxi, _, hxq, hacc, rfl⟩ := push_next ht
  · exact absurd hl hne
  · exact
      { cfg := rfl
        lc := rfl
        refI := rfl
        refQ := rfl
        rxI := by rw [show s.rxI = some xi from hxi]; rfl
        rxQ := hxq.trans (h.boundHasWindow hl).2.map_eq
        scored := ⟨i, q, hacc, rfl, rfl⟩ }

theorem run_succ {s t : State} (k : Nat) (h : step s = .next t) :
    Host.Core.run Sys2Proof.core (k + 1) s = Host.Core.run Sys2Proof.core k t := by
  simp [Host.Core.run, Sys2Proof.core, h]

/-- A run through one or more pushes answers, by transitivity along its steps. -/
theorem run_of_pushes {s : State} (op : OpWord) (ops : List OpWord) (h : HostInv s) (hl : s.lc = .bound)
    (hin : s.input = pushInputs (op :: ops)) :
    ∃ t, Host.Core.run Sys2Proof.core (op :: ops).length s = .next t ∧ PushedTo s (op :: ops) t := by
  induction ops generalizing s op with
  | nil =>
    obtain ⟨t, ht, hpush, _⟩ := step_of_push h.boundary hl hin
    exact ⟨t, run_succ 0 ht, hpush⟩
  | cons op' ops ih =>
    obtain ⟨u, hu, hpush, hrest⟩ := step_of_push h.boundary hl hin
    obtain ⟨t, ht, hpushes⟩ := ih op' (stepKeepsTheHostInvariant s u h hu) (hpush.lc.trans hl) hrest
    exact ⟨t, (run_succ _ hu).trans ht, hpush.trans hpushes⟩

/-- A run of at least as many pushes as the pattern is long. -/
theorem run_of_filling {s : State} {ops : List OpWord} (h : HostInv s) (hl : s.lc = .bound)
    (hin : s.input = pushInputs ops) (hfill : s.pn.toNat ≤ ops.length) :
    ∃ t, Host.Core.run Sys2Proof.core ops.length s = .next t ∧ PushedTo s ops t := by
  obtain ⟨⟨hpos, _⟩, _⟩ := h.boundary.patternIsLive (by simp [hl])
  cases ops with
  | nil => exact absurd hfill (by simp; omega)
  | cons op ops => exact run_of_pushes op ops h hl hin

/-- From the n-th push on the window is the hard decisions of the last n symbols. -/
theorem PushedTo.window {s t : State} {ops : List OpWord} (h : PushedTo s ops t) (hs : AtBoundary s)
    (hl : s.lc = .bound) (hfill : s.pn.toNat ≤ ops.length) :
    t.rxI = some ((ops.map (hdI s.cfg.sw)).drop (ops.length - s.pn.toNat)) ∧
    t.rxQ = if symbolComplex s.cfg.cls = true then
      some ((ops.map (hdQ s.cfg.sw)).drop (ops.length - s.pn.toNat)) else none := by
  have filled : ∀ {p : Option Rail} (f : OpWord → Bool), LiveWith p s.pn.toNat →
      (p.map fun r : Rail => (ops.map f).foldl railPush r) =
        some ((ops.map f).drop (ops.length - s.pn.toNat)) := by
    rintro _ f ⟨r, rfl, hr⟩
    rw [Option.map_some, foldl_railPush_of_length_le (by simpa [hr] using hfill), hr, List.length_map]
  obtain ⟨hxi, hxq⟩ := hs.boundHasWindow hl
  refine ⟨h.rxI.trans (filled _ hxi), h.rxQ.trans ?_⟩
  split
  · next hc => exact filled _ (hxq.liveWith hc)
  · next hc => rw [hxq.eq_none (by simpa using hc), Option.map_none]

/-- Settles O57: the window is the last symbols' in both runs, and the score is a function of pattern and window. -/
theorem windowForgetsThePast : Obligations.WindowForgetsThePast := by
  intro s s' ops h h' hl hl' hcfg hpn hrefI hrefQ hin hin' hfill
  obtain ⟨t, ht, hpush⟩ := run_of_filling h hl hin hfill
  obtain ⟨t', ht', hpush'⟩ := run_of_filling h' hl' hin' (hpn ▸ hfill)
  obtain ⟨hxi, hxq⟩ := hpush.window h.boundary hl hfill
  obtain ⟨hxi', hxq'⟩ := hpush'.window h'.boundary hl' (hpn ▸ hfill)
  rw [← hcfg, ← hpn] at hxi' hxq'
  have hrxI : t.rxI = t'.rxI := hxi.trans hxi'.symm
  have hrxQ : t.rxQ = t'.rxQ := hxq.trans hxq'.symm
  obtain ⟨i, q, hacc, hlast, hresp⟩ := hpush.scored
  obtain ⟨i', q', hacc', hlast', hresp'⟩ := hpush'.scored
  rw [← hcfg, ← hrefI, ← hrefQ, ← hrxI, ← hrxQ, hacc] at hacc'
  cases hacc'
  exact ⟨t, t', ht, ht', hrxI, hrxQ, hlast.trans hlast'.symm, hresp.trans hresp'.symm⟩

/-! ### Perfect alignment (44_correlator.md rule R187) -/

/-- The response's 32 bits hold every numerator over a pattern of at most 2^24 - 1 elements. -/
theorem NumeratorBound.value_eq {cls : CorrClass} {n : Nat} {i q : Int} (h : NumeratorBound cls n i q)
    (hn : n < 2 ^ 24) (st : Status) :
    ({ status := st, valI := BitVec.ofInt 32 i, valQ := BitVec.ofInt 32 q } : Response).value n =
      ((i : ℚ) / n, (q : ℚ) / n) := by
  obtain ⟨hi, hq⟩ := h.natAbs_le
  have hI : (BitVec.ofInt 32 i).toInt = i := BitVec.toInt_ofInt_eq_self (by decide) (by omega) (by omega)
  have hQ : (BitVec.ofInt 32 q).toInt = q := BitVec.toInt_ofInt_eq_self (by decide) (by omega) (by omega)
  rw [Response.value, hI, hQ]

/-- A run of as many pushes as the pattern is long ends with the score of the symbols' hard decisions. -/
theorem run_of_aligned {s : State} {ops : List OpWord} {i q : Int} (h : HostInv s) (hl : s.lc = .bound)
    (hin : s.input = pushInputs ops) (hlen : ops.length = s.pn.toNat)
    (hacc : accumulate s.cfg.cls s.refI s.refQ (some (ops.map (hdI s.cfg.sw)))
      (if symbolComplex s.cfg.cls = true then some (ops.map (hdQ s.cfg.sw)) else none) = .ok (i, q)) :
    ∃ t r, Host.Core.run Sys2Proof.core ops.length s = .next t ∧ t.resp = some r ∧ r.status = .ok ∧
      r.value s.pn.toNat = ((i : ℚ) / s.pn.toNat, (q : ℚ) / s.pn.toNat) ∧
      t.rxI = some (ops.map (hdI s.cfg.sw)) ∧ t.refI = s.refI := by
  obtain ⟨t, ht, hpush⟩ := run_of_filling h hl hin hlen.ge
  obtain ⟨hxi, hxq⟩ := hpush.window h.boundary hl hlen.ge
  rw [hlen, Nat.sub_self, List.drop_zero] at hxi hxq
  obtain ⟨_, _, hscore, _, hresp⟩ := hpush.scored
  rw [hxi, hxq, hacc] at hscore
  cases hscore
  obtain ⟨_, hri, hrq⟩ := h.boundary.patternIsLive (by simp [hl])
  exact ⟨t, _, ht, hresp, rfl, (accumulate_numeratorBound hri hrq hacc).value_eq s.pn.isLt _, hxi, hpush.refI⟩

/-- The pattern of a bound engine is live, and not empty. -/
theorem HostInv.pattern_length {s : State} {ri : Rail} (h : HostInv s) (hl : s.lc = .bound)
    (hri : s.refI = some ri) : ri.length = s.pn.toNat ∧ (s.pn.toNat : ℚ) ≠ 0 := by
  obtain ⟨⟨hpos, _⟩, hlive, _⟩ := h.boundary.patternIsLive (by simp [hl])
  rw [hri, liveWith_some] at hlive
  exact ⟨hlive, by exact_mod_cast (by omega : s.pn.toNat ≠ 0)⟩

/-- Settles O54: the rails are equal, so the correlation is the length. -/
theorem perfectAlignmentOfARealPattern : Obligations.PerfectAlignmentOfARealPattern := by
  intro s ops h hl hcls hri hin
  obtain ⟨hlen, hn⟩ := h.pattern_length hl hri
  have hops : ops.length = s.pn.toNat := by simpa using hlen
  obtain ⟨t, r, ht, hr, hok, hvalue, hrxI, hrefI⟩ := run_of_aligned (i := s.pn.toNat) (q := 0) h hl hin hops (by
    rw [hcls, hri]
    exact accumulate_eq_ok.mpr ⟨by rw [bsbCorr_some rfl, corr_self, hlen], rfl⟩)
  refine ⟨t, r, ht, hr, hok, ?_, by rw [hrxI, hrefI, hri]⟩
  simp [hvalue, hn]

/-- Settles O55: the in-phase rail equals the pattern, and the quadrature rail is a rail of zeros. -/
theorem perfectAlignmentOfComplexSymbols : Obligations.PerfectAlignmentOfComplexSymbols := by
  intro s ops ri h hl hcls hri hdecide hquad hin
  obtain ⟨hlen, hn⟩ := h.pattern_length hl hri
  have hops : ops.length = s.pn.toNat := by simpa [hdecide] using hlen
  have hzero : ops.map (hdQ s.cfg.sw) = zeros ri.length :=
    List.eq_replicate_iff.mpr ⟨by simp [hdecide], by simpa using hquad⟩
  obtain ⟨t, r, ht, hr, hok, hvalue, _, _⟩ :=
    run_of_aligned (i := s.pn.toNat) (q := s.pn.toNat - 2 * ones ri) h hl hin hops (by
      rw [hcls, hri, ← hdecide, hzero]
      exact accumulate_eq_ok.mpr
        ⟨by rw [bsbCorr_some rfl, corr_self, hlen],
          (bsbCorr_some (zeros_length _).symm).trans (by rw [corr_zeros, hlen])⟩)
  exact ⟨t, r, ht, hr, hok, by simp [hvalue, hn]⟩

/-- Settles O56: the pattern's own quadrature rail cancels the real part and doubles the imaginary part, its complement
does the reverse. -/
theorem perfectAlignmentOfAComplexPattern : Obligations.PerfectAlignmentOfAComplexPattern := by
  intro s ops ri rq h hl hcls hri hrq hdecide hin
  obtain ⟨hlen, hn⟩ := h.pattern_length hl hri
  have hops : ops.length = s.pn.toNat := by simpa [hdecide] using hlen
  obtain ⟨_, _, hliveQ⟩ := h.boundary.patternIsLive (by simp [hl])
  have hlenQ : rq.length = s.pn.toNat := by
    rw [hrq, hcls] at hliveQ
    exact liveWith_some.mp (hliveQ.liveWith rfl)
  generalize hxq : ops.map (hdQ s.cfg.sw) = xq
  have hlenX : xq.length = s.pn.toNat := by rw [← hxq, List.length_map, hops]
  obtain ⟨t, r, ht, hr, hok, hvalue, _, _⟩ :=
    run_of_aligned (i := s.pn.toNat - corr rq xq) (q := corr ri xq + corr ri rq) h hl hin hops (by
      rw [hcls, hri, hrq, ← hdecide, hxq]
      exact accumulate_eq_ok.mpr ⟨_, _, _, _, bsbCorr_some rfl, bsbCorr_some (hlen.trans hlenX.symm),
        bsbCorr_some (hlenQ.trans hlen.symm), bsbCorr_some (hlenQ.trans hlenX.symm),
        by rw [corr_self, hlen], by rw [corr_comm rq ri]⟩)
  refine ⟨t, r, ht, hr, hok, fun hown => ?_, fun hconj => ?_⟩
  · rw [hvalue, hown, corr_self, hlenX, corr_eq_agreement ri xq (hlen.trans hlenX.symm)]
    simp [two_mul]
  · have hxq' : xq = rq.map not := by simp [hconj, ← hxq]
    rw [hvalue, hxq', corr_map_not, corr_map_not, corr_self, hlenQ]
    simp [hn, ← two_mul]

end Sys2Proof.Machine

/-! ## The sequence generator: its micro-operations, its orbit and one full period

A step is doubling with the feedback bit added, modulo 2^m. So a register that has become 0 stays 0, which a register
that returns to a non-zero initial value never does; and under a maximal period the registers of one period are the
numbers 1 to 2^m - 1, of which 2^(m-1) are odd. -/

namespace Sys2Proof.Machine

/-! ### The parameters of a supported order (00_scope.md rule R9) -/

theorem order_toNat {m : Nat} (h : 2 ≤ m ∧ m ≤ 12) : (BitVec.ofNat 4 m).toNat = m := by
  rw [BitVec.toNat_ofNat]
  omega

theorem period_pos {m : Nat} (h : 2 ≤ m ∧ m ≤ 12) : 0 < 2 ^ m - 1 := by
  have := two_pow_order_le h
  omega

theorem Config.Wf.sgA_ne_zero {c : Config} (hc : c.Wf) {m : Nat} (hm : 2 ≤ m ∧ m ≤ 12) : sgA c m ≠ 0 := by
  obtain ⟨_, _, _, horders⟩ := hc
  have hmem : m ∈ sgOrders := by
    simp only [sgOrders, List.mem_cons, List.not_mem_nil]
    omega
  obtain ⟨_, _, hne⟩ := horders m hmem
  exact hne

/-! ### Creation, reset, length and destruction (41_generator.md rules R122, R123, R125 and R126) -/

/-- On a live generator a micro-operation answers what it does to it. -/
theorem onSg_of_some {s : State} {g : SgState} (hg : s.sg = some g) (body : SgState → State) :
    toOutcome (onSg s body) = .next (body g) :=
  toOutcome_eq_next.mpr (onSg_eq_ok.mpr ⟨g, hg, rfl⟩)

theorem onSg_of_none {s : State} (hs : s.sg = none) (body : SgState → State) :
    toOutcome (onSg s body) = .refused .sgNotLive := by
  rw [onSg, hs]
  rfl

/-- `SG.CREATE` answers as the operation on the generator does. -/
theorem sgCreate_next_of_ok {s : State} {m : Nat} {g : SgState} (h : sgCreate s.cfg s.sg m = .ok g) :
    exec (.sgCreate m) s = .next { s with sg := some g, uresult := none } := by
  rw [exec, execSgCreate, h]
  rfl

theorem sgCreate_refused_of_error {s : State} {m : Nat} {r : Refusal} (h : sgCreate s.cfg s.sg m = .error r) :
    exec (.sgCreate m) s = .refused r := by
  rw [exec, execSgCreate, h]
  rfl

/-- Settles O44, by whether a generator is live and whether the order is supported. -/
theorem sgCreateInitialises : Obligations.SgCreateInitialises := by
  refine fun s m => ⟨rfl, fun hs hlow hhigh => ?fresh, fun hs hm => ?order, fun hs => ?live⟩
  case fresh => exact sgCreate_next_of_ok (sgCreate_eq_ok.mpr ⟨hs, ⟨hlow, hhigh⟩, rfl⟩)
  case order =>
    refine sgCreate_refused_of_error ?_
    rw [hs]
    exact if_neg (by omega)
  case live =>
    obtain ⟨g, hg⟩ := Option.ne_none_iff_exists'.mp hs
    refine sgCreate_refused_of_error ?_
    rw [hg]
    rfl

theorem sgLen_eq (g : SgState) : (sgLen g : Int) = 2 ^ g.m.toNat - 1 := by
  simp [sgLen, Nat.cast_sub Nat.one_le_two_pow]

/-- Settles O45, by whether a generator is live. -/
theorem sgResetLenDestroy : Obligations.SgResetLenDestroy := by
  refine ⟨rfl, fun s t sel hs hx => (command_keeps_sg rfl hx).trans hs, fun s i hs hi => ?_,
    fun s g hg => ⟨onSg_of_some hg _, ?len, onSg_of_some hg _⟩⟩
  · obtain rfl | rfl | rfl | rfl := hi <;> exact onSg_of_none hs _
  case len =>
    rw [← sgLen_eq]
    exact onSg_of_some hg _

/-! ### The orbit of the initial register -/

/-- Being on the orbit is a matter of the parameters and the generator. -/
theorem SgOnOrbit.of_eq {s t : State} (h : SgOnOrbit s) (hcfg : t.cfg = s.cfg) (hsg : t.sg = s.sg) :
    SgOnOrbit t := by
  rw [SgOnOrbit, hcfg, hsg]
  exact h

theorem sgOnOrbit_of_none {s : State} (h : s.sg = none) : SgOnOrbit s := by
  simp [SgOnOrbit, h]

theorem sgOnOrbit_of_some {s : State} {g : SgState} {k : Nat} (hg : s.sg = some g)
    (hm : 2 ≤ g.m.toNat ∧ g.m.toNat ≤ 12) (hv : g.v = sgAfter s.cfg g.m.toNat k) : SgOnOrbit s := by
  rintro g' hg'
  obtain rfl : g = g' := Option.some.inj (hg.symm.trans hg')
  exact ⟨hm, k, hv⟩

theorem sgCreate_starts_orbit {m : Nat} {s t : State} (hx : exec (.sgCreate m) s = .next t) : SgOnOrbit t := by
  obtain ⟨_, hm, rfl⟩ := sgCreate_next hx
  exact sgOnOrbit_of_some (k := 0) rfl (by rwa [order_toNat hm]) (by rw [order_toNat hm]; rfl)

theorem sgReset_keeps_orbit {s t : State} (h : SgOnOrbit s) (hx : exec .sgReset s = .next t) : SgOnOrbit t := by
  obtain ⟨g, hg, rfl⟩ := sgReset_next hx
  exact sgOnOrbit_of_some (k := 0) rfl (h g hg).1 rfl

theorem sgNext_keeps_orbit {s t : State} (h : SgOnOrbit s) (hx : exec .sgNext s = .next t) : SgOnOrbit t := by
  obtain ⟨g, hg, rfl⟩ := sgNext_next hx
  obtain ⟨hm, k, hk⟩ := h g hg
  exact sgOnOrbit_of_some (k := k + 1) rfl hm (by rw [sgNext_m, sgNext_v, sgAfter, hk])

theorem micro_keeps_orbit {i : Instr} {s t : State} (hi : i.isCommand = false) (h : SgOnOrbit s)
    (hx : exec i s = .next t) : SgOnOrbit t := by
  have hcfg := micro_keeps_cfg hi hx
  cases i with
  | bsbCreate n len => obtain ⟨_, _, rfl⟩ := bsbCreate_next hx; exact h.of_eq hcfg (s.setRail_sg n _)
  | bsbPush n b => obtain ⟨_, _, _, rfl⟩ := bsbPush_next hx; exact h.of_eq hcfg (s.setRail_sg n _)
  | bsbCorr m n => obtain ⟨_, _, _, _, _, _, _, rfl⟩ := bsbCorr_next hx; exact h.of_eq hcfg rfl
  | bsbClear n => obtain ⟨_, _, _, rfl⟩ := bsbClear_next hx; exact h.of_eq hcfg (s.setRail_sg n _)
  | bsbDestroy n => obtain ⟨_, _, _, rfl⟩ := bsbDestroy_next hx; exact h.of_eq hcfg (s.setRail_sg n _)
  | sgCreate m => exact sgCreate_starts_orbit hx
  | sgReset => exact sgReset_keeps_orbit h hx
  | sgNext => exact sgNext_keeps_orbit h hx
  | sgLen => obtain ⟨_, _, rfl⟩ := sgLen_next hx; exact h.of_eq hcfg rfl
  | sgDestroy => obtain ⟨_, _, rfl⟩ := sgDestroy_next hx; exact sgOnOrbit_of_none rfl
  | _ => cases hi

theorem exec_keeps_orbit {i : Instr} {s t : State} (h : SgOnOrbit s) (hx : exec i s = .next t) : SgOnOrbit t := by
  cases hi : i.isCommand with
  | true => exact h.of_eq (exec_keeps_cfg hx) (command_keeps_sg hi hx)
  | false => exact micro_keeps_orbit hi h hx

theorem step_keeps_orbit {s t : State} (h : SgOnOrbit s) (hstep : step s = .next t) : SgOnOrbit t := by
  obtain ⟨_, rfl⟩ | ⟨_, _, rfl⟩ | ⟨_, _, _, _, _, rfl⟩ | ⟨_, rest, _, _, _, hx⟩ := step_next hstep
  · exact h
  · exact sgOnOrbit_of_none rfl
  · exact h.of_eq rfl rfl
  · exact exec_keeps_orbit (s := { s with input := rest }) (h.of_eq rfl rfl) hx

/-- A register that has become 0 stays 0, so it never returns to a non-zero initial value. -/
theorem MaximalPeriod.sgAfter_ne_zero {c : Config} {m : Nat} (hp : MaximalPeriod c m) (hm : 2 ≤ m ∧ m ≤ 12)
    (ha : sgA c m ≠ 0) (k : Nat) : sgAfter c m k ≠ 0 := by
  obtain ⟨hreturn, _⟩ := hp
  rw [sgAfter_eq_iterate] at hreturn ⊢
  intro hzero
  refine ha ?_
  have hlate : k ≤ k * (2 ^ m - 1) := Nat.le_mul_of_pos_right k (period_pos hm)
  calc sgA c m = (sgStep c m)^[k * (2 ^ m - 1)] (sgA c m) := (Function.IsPeriodicPt.const_mul hreturn k).symm
    _ = (sgStep c m)^[k * (2 ^ m - 1) - k] ((sgStep c m)^[k] (sgA c m)) := by
      rw [← Function.iterate_add_apply, Nat.sub_add_cancel hlate]
    _ = 0 := by rw [hzero, Function.iterate_fixed (sgStep_xorLinear c m).map_zero]

/-- Settles O47: the orbit is kept step by step, and no register on it is 0. -/
theorem sgRegisterIsNeverZero : Obligations.SgRegisterIsNeverZero := by
  refine ⟨fun _ _ => step_keeps_orbit, fun s g hc h hg hp => ?_⟩
  obtain ⟨hm, k, hk⟩ := h g hg
  rw [hk]
  exact hp.sgAfter_ne_zero hm (Config.Wf.sgA_ne_zero hc hm) k

/-! ### One step in numbers (41_generator.md rule R124) -/

/-- A running sum modulo 2 is the parity of the number of ones. -/
theorem foldl_xor_iff (f : Nat → Bool) (ks : List Nat) (p : Bool) :
    ks.foldl (fun p k => xor p (f k)) p = true ↔ (p.toNat + ks.countP f) % 2 = 1 := by
  induction ks generalizing p with
  | nil => cases p <;> simp
  | cons k ks ih =>
    rw [List.foldl_cons, ih, List.countP_cons]
    cases p <;> cases f k <;> simp <;> omega

theorem countP_range_of_low {f g : Nat → Bool} {m n : Nat} (hmn : m ≤ n) (hlow : ∀ k < m, f k = g k)
    (hhigh : ∀ k, m ≤ k → f k = false) : (List.range n).countP f = (List.range m).countP g := by
  obtain ⟨d, rfl⟩ := Nat.exists_eq_add_of_le hmn
  have hzero : ((List.range d).map (m + ·)).countP f = 0 := by
    simp [List.countP_eq_zero, hhigh]
  rw [List.range_add, List.countP_append, hzero, Nat.add_zero]
  exact List.countP_congr fun k hk => by rw [hlow k (List.mem_range.mp hk)]

theorem sgMask_getLsbD {m : Nat} (h : m ≤ 12) (k : Nat) : (sgMask m).getLsbD k = decide (k < m) := by
  rw [BitVec.getLsbD, sgMask_toNat h, Nat.testBit_two_pow_sub_one]

theorem sgFeedback_iff {m : Nat} (h : m ≤ 12) (c : Config) (v : BitVec 12) : sgFeedback c m v = true ↔
    (List.range m).countP (fun k => v.getLsbD k && (sgG c m).getLsbD k) % 2 = 1 := by
  rw [sgFeedback, parity, foldl_xor_iff, Bool.toNat_false, Nat.zero_add, countP_range_of_low h]
  · intro k hk
    simp [sgMask_getLsbD h, hk]
  · intro k hk
    simp [sgMask_getLsbD h, hk.not_gt]

theorem shiftLeft_or_bit_toNat (v : BitVec 12) (b : Bool) :
    ((v <<< 1) ||| (BitVec.ofBool b).setWidth 12).toNat = (2 * v.toNat + b.toNat) % 2 ^ 12 := by
  have hshift : ((v <<< 1) ||| (BitVec.ofBool b).setWidth 12) = v.shiftConcat b := by
    ext i hi
    cases i <;> simp [BitVec.getElem_shiftConcat]
  rw [hshift, BitVec.toNat_shiftConcat, Nat.shiftLeft_eq, Nat.mul_comm, Nat.pow_one]

theorem sgStep_toNat {m : Nat} (h : m ≤ 12) (c : Config) (v : BitVec 12) :
    (sgStep c m v).toNat = (2 * v.toNat + (sgFeedback c m v).toNat) % 2 ^ m := by
  rw [sgStep, BitVec.toNat_and, shiftLeft_or_bit_toNat, sgMask_toNat h, Nat.and_two_pow_sub_one_eq_mod,
    Nat.mod_mod_of_dvd _ (Nat.pow_dvd_pow 2 h)]

/-- Settles O46: the feedback bit as a count of bits, and the next register as doubling modulo 2^m. -/
theorem sgNextAdvancesTheRegister : Obligations.SgNextAdvancesTheRegister := by
  intro s g hg _ hm
  exact ⟨rfl, sgFeedback s.cfg g.m.toNat g.v, sgStep s.cfg g.m.toNat g.v, onSg_of_some hg _,
    sgFeedback_iff hm s.cfg g.v, sgStep_toNat hm s.cfg g.v⟩

/-! ### One full period (41_generator.md rule R128) -/

theorem MaximalPeriod.minimalPeriod_eq {c : Config} {m : Nat} (hp : MaximalPeriod c m) (hm : 2 ≤ m ∧ m ≤ 12) :
    Function.minimalPeriod (sgStep c m) (sgA c m) = 2 ^ m - 1 := by
  obtain ⟨hreturn, hearly⟩ := hp
  simp only [sgAfter_eq_iterate] at hreturn hearly
  have hle := Function.IsPeriodicPt.minimalPeriod_le (period_pos hm) hreturn
  have hpos := Function.IsPeriodicPt.minimalPeriod_pos (period_pos hm) hreturn
  exact hle.antisymm (Nat.le_of_not_lt fun hlt => hearly _ hpos hlt Function.iterate_minimalPeriod)

/-- R128 (2): one period of registers, read after each step, is every non-zero number of m bits once. -/
theorem MaximalPeriod.registers_perm {c : Config} {m : Nat} (hp : MaximalPeriod c m) (hm : 2 ≤ m ∧ m ≤ 12)
    (ha : sgA c m ≠ 0) :
    ((List.range (2 ^ m - 1)).map fun k => (sgAfter c m (k + 1)).toNat).Perm (List.range' 1 (2 ^ m - 1)) := by
  have hperiodic : sgA c m ∈ Function.periodicPts (sgStep c m) :=
    Function.minimalPeriod_pos_iff_mem_periodicPts.mp (hp.minimalPeriod_eq hm ▸ period_pos hm)
  refine (List.subperm_of_subset (List.nodup_range.map_on ?distinct) ?nonzero).perm_of_length_le (by simp)
  case distinct =>
    intro i hi j hj hij
    rw [List.mem_range, ← hp.minimalPeriod_eq hm, ← Function.minimalPeriod_apply hperiodic] at hi hj
    have hregs := BitVec.eq_of_toNat_eq hij
    simp only [sgAfter_eq_iterate, Function.iterate_succ_apply] at hregs
    exact (Function.iterate_eq_iterate_iff_of_lt_minimalPeriod hi hj).mp hregs
  case nonzero =>
    intro x hx
    obtain ⟨k, _, rfl⟩ := List.mem_map.mp hx
    have hlt : (sgAfter c m (k + 1)).toNat < 2 ^ m := sgStep_lt hm.2 _
    have hne : (sgAfter c m (k + 1)).toNat ≠ 0 := fun hzero =>
      hp.sgAfter_ne_zero hm ha (k + 1) (BitVec.eq_of_toNat_eq hzero)
    rw [List.mem_range'_1]
    omega

theorem countP_odd_range (n : Nat) : (List.range (2 * n)).countP (fun k => k % 2 = 1) = n := by
  induction n with
  | zero => rfl
  | succ n ih =>
    rw [Nat.mul_succ, List.range_succ, List.range_succ]
    simp [ih]

/-- 0 is even, so it may be left out. -/
theorem countP_odd_nonzero {m : Nat} (hm : 0 < m) :
    (List.range' 1 (2 ^ m - 1)).countP (fun k => k % 2 = 1) = 2 ^ (m - 1) := by
  have hsplit : List.range (2 * 2 ^ (m - 1)) = 0 :: List.range' 1 (2 ^ m - 1) := by
    rw [Nat.mul_comm, Nat.two_pow_pred_mul_two hm, ← Nat.sub_add_cancel (Nat.one_le_two_pow (n := m)),
      List.range_eq_range', List.range'_succ]
    rfl
  have := countP_odd_range (2 ^ (m - 1))
  rwa [hsplit, List.countP_cons_of_neg (by decide)] at this

/-- The bit of a step is the low bit of the register after it. -/
theorem sgBit_eq_low_bit (c : Config) {m : Nat} (hm : 2 ≤ m ∧ m ≤ 12) (k : Nat) :
    sgBit c m k = decide ((sgAfter c m (k + 1)).toNat % 2 = 1) := by
  have hdvd : 2 ∣ 2 ^ m := Dvd.intro_left _ (Nat.two_pow_pred_mul_two (by omega))
  rw [sgAfter, sgStep_toNat hm.2, Nat.mod_mod_of_dvd _ hdvd, Nat.mul_add_mod, sgBit]
  cases sgFeedback c m (sgAfter c m k) <;> rfl

/-- Settles O48: the bits of a period are the low bits of the numbers 1 to 2^m - 1, in the order of the orbit. -/
theorem fullPeriodIsBalanced : Obligations.FullPeriodIsBalanced := by
  intro c m hc hlow hhigh hp
  have hm := And.intro hlow hhigh
  constructor
  · calc ones (sgBits c m (2 ^ m - 1))
        = ((List.range (2 ^ m - 1)).map fun k => (sgAfter c m (k + 1)).toNat).countP (fun k => k % 2 = 1) := by
          simp only [ones, sgBits, List.count_eq_countP, List.countP_map, Function.comp_def, beq_true,
            sgBit_eq_low_bit c hm]
      _ = (List.range' 1 (2 ^ m - 1)).countP (fun k => k % 2 = 1) :=
          (hp.registers_perm hm (Config.Wf.sgA_ne_zero hc hm)).countP_eq _
      _ = 2 ^ (m - 1) := countP_odd_nonzero (by omega)
  · obtain ⟨hreturn, _⟩ := hp
    have hdrain := (sgDrain_of_sgAfter c (2 ^ m - 1) 0 ⟨BitVec.ofNat 4 m, sgA c m⟩
      (by simp only [order_toNat hm, sgAfter])).2
    rwa [order_toNat hm, Nat.zero_add, hreturn] at hdrain

end Sys2Proof.Machine

/-! ## The catalog of the selector

Inside the catalog the order is the selector plus 2, and outside it there is none (42_selector.md rule R143). -/

namespace Sys2Proof.Machine

theorem selLookup_eq_none {sel : BitVec 4} : selLookup sel = none ↔ 10 < sel.toNat := by
  rw [selLookup, ite_eq_right_iff]
  simp

/-- On a list of selectors of the catalog the lookup is arithmetic. -/
theorem map_selLookup_of_le {sels : List (BitVec 4)} (h : ∀ sel ∈ sels, sel.toNat ≤ 10) :
    sels.map selLookup = (sels.map fun sel => sel.toNat + 2).map some := by
  rw [List.map_map]
  exact List.map_congr_left fun sel hsel => selLookup_eq_some.mpr ⟨h sel hsel, rfl⟩

theorem map_selLookup_of_gt {sels : List (BitVec 4)} (h : ∀ sel ∈ sels, 10 < sel.toNat) :
    sels.map selLookup = List.replicate sels.length none :=
  List.map_eq_replicate_iff.mpr fun sel hsel => selLookup_eq_none.mpr (h sel hsel)

/-- Settles O14: the eleven selectors up to 10 are looked up by the arithmetic of the catalog, the five above it have
no order, and the lengths are evaluated. -/
theorem catalogMapsSelectorsToOrders : Obligations.CatalogMapsSelectorsToOrders := by
  refine ⟨?catalog, ?outside, ?lengths⟩
  case catalog => exact map_selLookup_of_le (by decide)
  case outside => exact map_selLookup_of_gt (by decide)
  case lengths => rfl

end Sys2Proof.Machine

/-! ## Pattern construction

`PSEQ`, `PGEN` and `PDESTROY` (43_pattern.md). Each command's word is the word that the encoder gives it; a command that
answers is one of the cases of its law, so its outcome in a state follows from the checks that the state meets. -/

namespace Sys2Proof.Machine

/-! ### The words of `PSEQ` and `PGEN` (30_encoding.md rules R71 to R73) -/

theorem append_eq_commandWord (opc : BitVec 8) (arg : BitVec 24) : opc ++ arg = commandWord opc arg := by
  refine BitVec.eq_of_toNat_eq ?_
  rw [commandWord_toNat, BitVec.toNat_append, ← Nat.shiftLeft_add_eq_or_of_lt arg.isLt, Nat.shiftLeft_eq, Nat.add_comm]

/-- The argument of a `PGEN` word: zeros in the reserved bits, the selector below them. -/
theorem append_reserved_sel (opc : BitVec 8) (sel : BitVec 4) :
    (opc ++ 0#20 ++ sel : CommandWord) = commandWord opc (sel.setWidth 24) := by
  rw [← append_eq_commandWord, BitVec.setWidth_eq_append (by decide), BitVec.append_assoc]
  rfl

/-! ### The quadrature reference rail (10_state.md rule R28) -/

theorem ite_patternComplex {α : Type} (c : CorrClass) (a b : α) :
    (if patternComplex c = true then a else b) = if c = .cc then a else b := by
  simp only [patternComplex_iff]

/-! ### `PSEQ` (rule R151) -/

/-- Settles O10: the command answers, and the case of its law is the first check that fails or, where none does, the
pattern. -/
theorem pseqBuildsThePattern : Obligations.PseqBuildsThePattern := by
  intro s n burst hlen
  refine ⟨?word, ?outcome⟩
  case word =>
    rw [append_eq_commandWord]
    exact decodeOfEncodeIsTheInstruction (.pseq n burst) (by simpa [Instr.wf] using hlen)
  case outcome =>
    obtain ⟨t, ht⟩ := pseq_answers (s := s) hlen
    rw [ht]
    obtain ⟨_, ⟨hl, rfl⟩ | ⟨hl, hzero, rfl⟩ | ⟨hl, hlong, rfl⟩ | ⟨hl, hpos, hmax, rfl⟩⟩ := pseq_next ht
    · rw [if_pos hl, State.raise_eq_raisedState]; rfl
    · rw [if_neg (not_not_intro hl), if_pos hzero, State.raise_eq_raisedState]; rfl
    · rw [if_neg (not_not_intro hl), if_neg (Nat.ne_zero_of_lt hlong), if_pos hlong, State.raise_eq_raisedState]; rfl
    · rw [if_neg (not_not_intro hl), if_neg (Nat.ne_zero_of_lt hpos), if_neg (Nat.not_lt.mpr hmax),
        ite_patternComplex]
      rfl

/-! ### `PGEN` (rules R156 to R160) -/

/-- Settles O11: the command answers, and the case of its law is the first check that fails or, where none does, the
drained bits. -/
theorem pgenDrainsTheGenerator : Obligations.PgenDrainsTheGenerator := by
  intro s sel hsg hmax
  refine ⟨?word, ?outcome⟩
  case word =>
    rw [append_reserved_sel]
    exact decodeOfEncodeIsTheInstruction (.pgen sel) rfl
  case outcome =>
    obtain ⟨t, ht⟩ := pgen_answers (sel := sel) hsg hmax
    rw [ht]
    obtain ⟨hl, rfl⟩ | ⟨hl, hsel, rfl⟩ | ⟨hl, hsel, _, _, rfl⟩ := pgen_next ht
    · rw [if_pos hl, State.raise_eq_raisedState]; rfl
    · rw [if_neg (not_not_intro hl), if_pos hsel, State.raise_eq_raisedState]; rfl
    · rw [if_neg (not_not_intro hl), if_neg (Nat.not_lt.mpr hsel), ite_patternComplex]; rfl

/-- Both checks of `PGEN` stand before `SG.CREATE` (rule R157), so they raise whatever the generator holds. -/
theorem pgen_of_ne_empty {s : State} {sel : BitVec 4} (hl : s.lc ≠ .empty) :
    exec (.pgen sel) s = .next (s.raise .state) :=
  if_pos hl

theorem pgen_of_outside_catalog {s : State} {sel : BitVec 4} (hl : s.lc = .empty) (hsel : 10 < sel.toNat) :
    exec (.pgen sel) s = .next (s.raise .sel) := by
  rw [exec, execPgen, if_neg (not_not_intro hl), selLookup_eq_none.mpr hsel]

theorem pgen_status {s t : State} {sel : BitVec 4} {r : Response} (h : exec (.pgen sel) s = .next t)
    (hr : t.resp = some r) : r.status = .ok ∨ r.status = .error .state ∨ r.status = .error .sel := by
  obtain ⟨_, rfl⟩ | ⟨_, _, rfl⟩ | ⟨_, _, _, _, rfl⟩ := pgen_next h <;> obtain rfl := Option.some.inj hr
  exacts [.inr (.inl rfl), .inr (.inr rfl), .inl rfl]

/-- Settles O12: the two checks in their order, the generator that a command leaves as it was, and the statuses of the
three cases. -/
theorem pgenRaisesInOrder : Obligations.PgenRaisesInOrder := by
  refine fun s sel => ⟨fun hl => ?notEmpty, fun hl hsel => ?outside, fun hsg t ht =>
    ⟨(command_keeps_sg rfl ht).trans hsg, fun r hr => pgen_status ht hr⟩⟩
  case notEmpty => rw [pgen_of_ne_empty hl, State.raise_eq_raisedState]; rfl
  case outside => rw [pgen_of_outside_catalog hl hsel, State.raise_eq_raisedState]; rfl

/-! ### What the drained bits depend on (rules R128 and R160) -/

theorem sgFeedback_congr {c c' : Config} (hG : c.sgG = c'.sgG) (m : Nat) (v : BitVec 12) :
    sgFeedback c m v = sgFeedback c' m v := by
  simp only [sgFeedback, sgG, hG]

theorem sgAfter_congr {c c' : Config} (hG : c.sgG = c'.sgG) (hA : c.sgA = c'.sgA) (m k : Nat) :
    sgAfter c m k = sgAfter c' m k := by
  induction k with
  | zero => simp only [sgAfter, sgA, hA]
  | succ k ih => simp only [sgAfter, sgStep, ih, sgFeedback_congr hG]

/-- The stream is a function of the order and the generator table. -/
theorem sgBits_congr {c c' : Config} (hG : c.sgG = c'.sgG) (hA : c.sgA = c'.sgA) (m n : Nat) :
    sgBits c m n = sgBits c' m n :=
  List.map_congr_left fun k _ => by rw [sgBit, sgBit, sgAfter_congr hG hA, sgFeedback_congr hG]

/-- What a valid `PGEN` from `EMPTY` writes into the pattern. -/
theorem pgen_pattern {s t : State} {sel : BitVec 4} (hl : s.lc = .empty) (hsel : sel.toNat ≤ 10)
    (h : exec (.pgen sel) s = .next t) :
    t.refI = some (sgBits s.cfg (sel.toNat + 2) (2 ^ (sel.toNat + 2) - 1)) ∧
    t.pn = BitVec.ofNat 24 (2 ^ (sel.toNat + 2) - 1) ∧ (s.cfg.cls = .cc → t.refQ = t.refI) := by
  obtain ⟨hne, _⟩ | ⟨_, hgt, _⟩ | ⟨_, _, _, _, rfl⟩ := pgen_next h
  · exact absurd hl hne
  · omega
  · exact ⟨rfl, rfl, fun hc => if_pos (patternComplex_iff.mpr hc)⟩

/-- Settles O13: both engines hold the stream of the same order from the same table. -/
theorem pgenDependsOnSelectorAndTableOnly : Obligations.PgenDependsOnSelectorAndTableOnly := by
  intro s s' t t' sel hl hl' hsel hG hA ht ht'
  obtain ⟨hI, hpn, hQ⟩ := pgen_pattern hl hsel ht
  obtain ⟨hI', hpn', _⟩ := pgen_pattern hl' hsel ht'
  have hrefI : t.refI = t'.refI := by rw [hI, hI', sgBits_congr hG hA]
  exact ⟨hrefI, hpn.trans hpn'.symm, fun hc => (hQ hc).trans hrefI⟩

/-! ### `PDESTROY` (rule R162) -/

/-- Releasing a rail that is live where it exists leaves its place empty there, and untouched elsewhere. -/
theorem ifExists_bsbDestroy {present : Bool} {p : Option Rail} (h : present = true → p ≠ none) :
    ifExists present p (bsbDestroy p) = .ok (if present = true then none else p) := by
  cases present with
  | false => rfl
  | true => exact bsbDestroy_eq_ok.mpr ⟨rail_ne_none.mp (h rfl), rfl⟩

theorem pdestroy_of_ready {s : State} {ri : Rail} (hl : s.lc = .ready) (hI : s.refI = some ri)
    (hQ : patternComplex s.cfg.cls = true → s.refQ ≠ none) :
    exec .pdestroy s = .next ({ s with
      refI := none, refQ := if patternComplex s.cfg.cls = true then none else s.refQ
      pn := 0, path := .explicit, lc := .empty }.done 0 0) := by
  simp only [exec, execPdestroy, inLifecycle_of_eq hl, toOutcome_eq_next, except_bind_eq_ok]
  exact ⟨none, bsbDestroy_eq_ok.mpr ⟨⟨ri, hI⟩, rfl⟩, _, ifExists_bsbDestroy hQ, rfl⟩

/-- Settles O15: the word is fixed and evaluates; in `READY` the live rails are released, elsewhere the check raises. -/
theorem pdestroyReleasesThePattern : Obligations.PdestroyReleasesThePattern := by
  refine ⟨rfl, fun s => ⟨fun ri hl hI hQ => ?ready, fun hl => ?elsewhere⟩⟩
  case ready =>
    rw [pdestroy_of_ready hl hI fun hc => hQ (patternComplex_iff.mp hc), ite_patternComplex]
    rfl
  case elsewhere =>
    rw [exec, execPdestroy, inLifecycle_of_ne hl, State.raise_eq_raisedState]
    rfl

/-! ### A live pattern stays as it is (rule R163) -/

/-- The two states hold the same pattern: the reference rails, `PN` and `PATH`. -/
structure SamePattern (s t : State) : Prop where
  refI : t.refI = s.refI
  refQ : t.refQ = s.refQ
  pn : t.pn = s.pn
  path : t.path = s.path

theorem SamePattern.raise (s : State) (c : ErrCause) : SamePattern s (s.raise c) := ⟨rfl, rfl, rfl, rfl⟩

/-- The commands that write the pattern build it, from `EMPTY`, or release it, into `EMPTY`; no other writes it. -/
theorem command_keeps_live_pattern {i : Instr} {s t : State} (hi : i.isCommand = true) (h : exec i s = .next t)
    (hs : s.lc ≠ .empty) (ht : t.lc ≠ .empty) : SamePattern s t := by
  cases i with
  | pseq n burst =>
    obtain rfl := eq_raise_of_ne_neededState h rfl hs
    exact .raise s _
  | pgen sel =>
    obtain rfl := eq_raise_of_ne_neededState h rfl hs
    exact .raise s _
  | bind =>
    obtain ⟨_, rfl⟩ | ⟨_, _, _, rfl⟩ := bind_next h
    exacts [.raise s _, ⟨rfl, rfl, rfl, rfl⟩]
  | reset =>
    obtain ⟨_, rfl⟩ | ⟨_, _, _, _, rfl⟩ := reset_next h
    exacts [.raise s _, ⟨rfl, rfl, rfl, rfl⟩]
  | push op =>
    obtain ⟨_, rfl⟩ | ⟨_, _, _, _, _, _, _, _, _, rfl⟩ := push_next h
    exacts [.raise s _, ⟨rfl, rfl, rfl, rfl⟩]
  | destroy =>
    obtain ⟨_, rfl⟩ | ⟨_, _, _, ⟨_, rfl⟩ | ⟨_, _, _, rfl⟩⟩ := destroy_next h
    exacts [.raise s _, ⟨rfl, rfl, rfl, rfl⟩, absurd rfl ht]
  | info =>
    obtain rfl := info_next h
    exact ⟨rfl, rfl, rfl, rfl⟩
  | rdlast =>
    obtain ⟨_, rfl⟩ | ⟨_, _, _, rfl⟩ := rdlast_next h
    exacts [.raise s _, ⟨rfl, rfl, rfl, rfl⟩]
  | pdestroy =>
    obtain ⟨_, rfl⟩ | ⟨_, _, _, rfl⟩ := pdestroy_next h
    exacts [.raise s _, absurd rfl ht]
  | _ => cases hi

/-- Settles O29, by the commands that write the pattern. -/
theorem livePatternIsImmutable : Obligations.LivePatternIsImmutable := by
  intro i s t hi h hs ht
  obtain ⟨hrefI, hrefQ, hpn, hpath⟩ := command_keeps_live_pattern hi h hs ht
  exact ⟨hrefI, hrefQ, hpn, hpath⟩

end Sys2Proof.Machine

/-! ## The correlator

`BIND`, `RESET`, `PUSH` and `DESTROY` (44_correlator.md). Each command's word is fixed and evaluates; in the lifecycle
state that it needs its outcome is one equation, and in every other state the check raises. What a `PUSH` returns is a
pair of numerators, so its bound is the bound of rule R186 on the numerators. -/

namespace Sys2Proof.Machine

/-! ### The state check (60_exceptions.md rule R214) -/

theorem inLifecycle_raises {l : Lifecycle} {s : State} {body : Except Refusal State} (h : s.lc ≠ l) :
    inLifecycle l s body = .next (raisedState s 1 .state) :=
  (inLifecycle_of_ne h).trans (congrArg _ (State.raise_eq_raisedState s .state))

/-! ### The quadrature received rail (10_state.md rule R30) -/

theorem ite_symbolComplex {α : Type} (c : CorrClass) (a b : α) :
    (if symbolComplex c = true then a else b) = if c = .rr then b else a := by
  cases c <;> rfl

/-! ### `BIND` (rule R171) -/

/-- Settles O16: the word evaluates; in `READY` the pattern's length is legal, so both creations answer. -/
theorem bindCreatesAZeroWindow : Obligations.BindCreatesAZeroWindow := by
  refine ⟨rfl, fun s => ⟨fun hl hpos hmax => ?ready, fun hl => inLifecycle_raises hl⟩⟩
  case ready =>
    rw [bind_of_ready hl ⟨hpos, hmax⟩, ite_symbolComplex]
    rfl

/-! ### `RESET` (rule R174) -/

theorem map_false_eq_zeros (r : Rail) : (r.map fun _ => false) = zeros r.length := List.map_const'

/-- Clearing a rail that is live where it exists writes it bit by bit there, and leaves its place alone elsewhere. -/
theorem ifExists_bsbClear {present : Bool} {p : Option Rail} (h : present = true → p ≠ none) :
    ifExists present p (some <$> bsbClear p) =
      .ok (if present = true then p.map fun r => r.map fun _ => false else p) := by
  cases present with
  | false => rfl
  | true =>
    obtain ⟨r, rfl⟩ := rail_ne_none.mp (h rfl)
    exact except_map_eq_ok.mpr ⟨_, bsbClear_eq_ok.mpr ⟨r, rfl, map_false_eq_zeros r⟩, rfl⟩

/-- Settles O17: the word evaluates; clearing writes as many zeros as the rail has bits, and so clears each of them. -/
theorem resetClearsTheWindow : Obligations.ResetClearsTheWindow := by
  refine ⟨rfl, fun s => ⟨fun xi hl hxi hq => ?bound, fun hl => inLifecycle_raises hl⟩⟩
  case bound =>
    have hxq : symbolComplex s.cfg.cls = true → s.rxQ ≠ none :=
      fun hc => rail_ne_none.mpr (hq.resolve_left (symbolComplex_iff.mp hc))
    rw [reset_of_bound hl hxi (ifExists_bsbClear hxq), ite_symbolComplex, map_false_eq_zeros]
    rfl

/-! ### `PUSH` (rules R178 and R182) -/

/-- A rail as long as one that is not empty shifts in the bit. -/
theorem shifted_eq_railPush {r x : Rail} (hlen : r.length = x.length) (hne : r ≠ []) (b : Bool) :
    shifted x b = railPush x b :=
  (railPush_eq_shifted (List.ne_nil_of_length_pos (hlen ▸ List.length_pos_of_ne_nil hne)) b).symm

/-- An elementary correlation on a rail after the shift. -/
theorem bsbCorr_railPush {r x : Rail} (hlen : r.length = x.length) (b : Bool) :
    bsbCorr (some r) (some (railPush x b)) = .ok (agreement r (railPush x b)) := by
  have hlen' : r.length = (railPush x b).length := by rw [hlen, railPush_length]
  rw [bsbCorr_some hlen', corr_eq_agreement _ _ hlen']

/-- Settles O19: the word evaluates, and in each class the accumulator answers the elementary correlations of its rails
after the shift. -/
theorem pushScoresEveryClass : Obligations.PushScoresEveryClass := by
  refine fun s op => ⟨rfl, fun hl => inLifecycle_raises hl, ?rr, ?cr, ?cc⟩
  case rr =>
    intro ri xi yi hl hcls hri hxi hlen hne hyi
    obtain rfl := hyi.trans (shifted_eq_railPush hlen hne _)
    refine push_of_bound (q := 0) hl hxi (by rw [hcls]; rfl) ?_
    rw [hcls, hri]
    exact accumulate_eq_ok.mpr ⟨bsbCorr_railPush hlen _, rfl⟩
  case cr =>
    intro ri xi xq yi yq hl hcls hri hxi hxq hlenI hlenQ hne hyi hyq
    obtain rfl := hyi.trans (shifted_eq_railPush hlenI hne _)
    obtain rfl := hyq.trans (shifted_eq_railPush hlenQ hne _)
    refine push_of_bound hl hxi (by rw [hcls, hxq]; rfl) ?_
    rw [hcls, hri]
    exact accumulate_eq_ok.mpr ⟨bsbCorr_railPush hlenI _, bsbCorr_railPush hlenQ _⟩
  case cc =>
    intro ri rq xi xq yi yq ni nq hl hcls hri hrq hxi hxq hlen hlenI hlenQ hne hyi hyq hni hnq
    obtain rfl := hyi.trans (shifted_eq_railPush hlenI hne _)
    obtain rfl := hyq.trans (shifted_eq_railPush hlenQ hne _)
    refine push_of_bound hl hxi (by rw [hcls, hxq]; rfl) ?_
    rw [hcls, hri, hrq]
    exact accumulate_eq_ok.mpr ⟨_, _, _, _, bsbCorr_railPush hlenI _, bsbCorr_railPush hlenQ _,
      bsbCorr_railPush (hlen.symm.trans hlenI) _, bsbCorr_railPush (hlen.symm.trans hlenQ) _, hni, hnq⟩

/-- Settles O58: a generator-built pattern has one rail in both places, so the four elementary correlations are two. -/
theorem generatorPatternScoring : Obligations.GeneratorPatternScoring := by
  intro s op h hl hpath hcls
  obtain ⟨⟨hpos, _⟩, ⟨ri, hri, hlen⟩, _⟩ := h.boundary.patternIsLive (by simp [hl])
  obtain ⟨⟨xi, hxi, hlenI⟩, hliveQ⟩ := h.boundary.boundHasWindow hl
  obtain ⟨xq, hxq, hlenQ⟩ := hliveQ.liveWith (symbolComplex_iff.mpr (by simp [hcls]))
  obtain ⟨_, hsame⟩ := h.boundary.generatorPattern hpath
  have hne : ri ≠ [] := List.ne_nil_of_length_pos (by omega)
  obtain ⟨_, _, _, _, hscore⟩ := pushScoresEveryClass s op
  have hpush := hscore ri ri xi xq _ _ _ _ hl hcls hri ((hsame hcls).trans hri) hxi hxq rfl (hlen.trans hlenI.symm)
    (hlen.trans hlenQ.symm) hne rfl rfl rfl (add_comm _ _)
  exact ⟨ri, _, _, _, hri, hpush, rfl, rfl, rfl⟩

/-! ### The bound on the correlation (rule R186) -/

/-- What a `PUSH` of a bound engine returns is a pair of bounded numerators over the length of the pattern. -/
theorem push_value {s t : State} {op : OpWord} {r : Response} (h : HostInv s) (hl : s.lc = .bound)
    (ht : exec (.push op) s = .next t) (hr : t.resp = some r) :
    ∃ i q : Int, NumeratorBound s.cfg.cls s.pn.toNat i q ∧
      r.value s.pn.toNat = ((i : ℚ) / s.pn.toNat, (q : ℚ) / s.pn.toNat) := by
  obtain ⟨_, hri, hrq⟩ := h.boundary.patternIsLive (by simp [hl])
  obtain ⟨hne, _⟩ | ⟨_, _, i, q, _, _, _, _, hacc, rfl⟩ := push_next ht
  · exact absurd hl hne
  · obtain rfl := Option.some.inj hr
    have hbound := accumulate_numeratorBound hri hrq hacc
    exact ⟨i, q, hbound, hbound.value_eq s.pn.isLt _⟩

theorem abs_div_add_abs_div_le {i q : Int} {n k : Nat} (h : i.natAbs + q.natAbs ≤ k * n) :
    |(i : ℚ) / n| + |(q : ℚ) / n| ≤ k := by
  have hcast : |(i : ℚ)| + |(q : ℚ)| ≤ k * n := by
    rw [← Int.cast_abs, ← Int.cast_abs, ← Nat.cast_natAbs, ← Nat.cast_natAbs]
    exact_mod_cast h
  rw [abs_div, abs_div, Nat.abs_cast, ← add_div]
  exact div_le_of_le_mul₀ n.cast_nonneg k.cast_nonneg hcast

theorem abs_div_le_one {i : Int} {n : Nat} (h : i.natAbs ≤ n) : |(i : ℚ) / n| ≤ 1 := by
  simpa using abs_div_add_abs_div_le (q := 0) (k := 1) (by simpa using h)

/-- Settles O59: the bounds on the numerators, divided by the length. -/
theorem correlationIsBoundedPerClass : Obligations.CorrelationIsBoundedPerClass := by
  intro s t op r h hl ht hr
  obtain ⟨i, q, hbound, hvalue⟩ := push_value h hl ht hr
  rw [hvalue]
  refine ⟨fun hcls => ?rr, fun hcls => ?cr, fun hcls => ?cc⟩ <;> rw [hcls] at hbound
  case rr =>
    obtain ⟨hi, _, rfl⟩ := hbound
    exact ⟨abs_div_le_one hi, by simp⟩
  case cr =>
    obtain ⟨hi, _, hq, _⟩ := hbound
    exact ⟨abs_div_le_one hi, abs_div_le_one hq⟩
  case cc =>
    obtain ⟨_, _, hsum⟩ := hbound
    exact abs_div_add_abs_div_le hsum

/-! ### `DESTROY` (rule R190) -/

theorem bsbDestroy_of_live {p : Option Rail} (h : p ≠ none) : bsbDestroy p = .ok none :=
  bsbDestroy_eq_ok.mpr ⟨rail_ne_none.mp h, rfl⟩

theorem destroy_of_explicit {s : State} (hl : s.lc = .bound) (hpath : s.path = .explicit) (hxi : s.rxI ≠ none)
    (hxq : symbolComplex s.cfg.cls = true → s.rxQ ≠ none) :
    exec .destroy s = .next ({ s with
      rxI := none, rxQ := if symbolComplex s.cfg.cls = true then none else s.rxQ
      last := none, lc := .ready }.done 0 0) := by
  simp only [exec, execDestroy, inLifecycle_of_eq hl, toOutcome_eq_next, except_bind_eq_ok, hpath]
  exact ⟨_, bsbDestroy_of_live hxi, _, ifExists_bsbDestroy hxq, rfl⟩

theorem destroy_of_generator {s : State} (hl : s.lc = .bound) (hpath : s.path = .generator) (hxi : s.rxI ≠ none)
    (hxq : symbolComplex s.cfg.cls = true → s.rxQ ≠ none) (hri : s.refI ≠ none)
    (hrq : patternComplex s.cfg.cls = true → s.refQ ≠ none) :
    exec .destroy s = .next ({ s with
      rxI := none, rxQ := if symbolComplex s.cfg.cls = true then none else s.rxQ
      refI := none, refQ := if patternComplex s.cfg.cls = true then none else s.refQ
      last := none, pn := 0, path := .explicit, lc := .empty }.done 0 0) := by
  simp only [exec, execDestroy, inLifecycle_of_eq hl, toOutcome_eq_next, except_bind_eq_ok, hpath]
  exact ⟨_, bsbDestroy_of_live hxi, _, ifExists_bsbDestroy hxq, _, bsbDestroy_of_live hri, _,
    ifExists_bsbDestroy hrq, rfl⟩

/-- Settles O20: the word evaluates; in `BOUND` the live rails are released, the pattern's by `PATH`. -/
theorem destroyReleasesByPath : Obligations.DestroyReleasesByPath := by
  refine ⟨rfl, fun s => ⟨fun hl hxi hq => ?bound, fun hl => inLifecycle_raises hl⟩⟩
  have hxq : symbolComplex s.cfg.cls = true → s.rxQ ≠ none := fun hc => hq.resolve_left (symbolComplex_iff.mp hc)
  refine ⟨fun hpath => ?explicit, fun hpath hri hrq => ?generator⟩
  case explicit =>
    rw [destroy_of_explicit hl hpath hxi hxq, ite_symbolComplex]
    rfl
  case generator =>
    rw [destroy_of_generator hl hpath hxi hxq hri fun hc => hrq (patternComplex_iff.mp hc), ite_symbolComplex,
      ite_patternComplex]
    rfl

end Sys2Proof.Machine

/-! ## The diagnostic commands

`INFO` and `RDLAST` (45_diagnostics.md). What `RDLAST` does is one equation where there is a cached value and one where
there is none. Its response after a `PUSH` is the response of the `PUSH` because the cache, though it is narrower than
the response, holds every numerator; and neither command writes anything that its own answer depends on. -/

namespace Sys2Proof.Machine

/-! ### `RDLAST` (rule R203) -/

theorem rdlast_of_cache {s : State} {v : LastValue} (hl : s.lc = .bound) (hlast : s.last = some v) :
    exec .rdlast s = .next (s.done (v.i.signExtend 32) (v.q.signExtend 32)) := by
  simp only [exec, execRdlast, inLifecycle_of_eq hl, hlast, toOutcome_eq_next]

/-- Where the response already is the cached value, `RDLAST` changes nothing. -/
theorem rdlast_keeps_state {s : State} {v : LastValue} (hl : s.lc = .bound) (hlast : s.last = some v)
    (hresp : s.resp = some { status := .ok, valI := v.i.signExtend 32, valQ := v.q.signExtend 32 }) :
    exec .rdlast s = .next s := by
  rw [rdlast_of_cache hl hlast, State.done, ← hresp]

/-- Without a cached value to return, for want of a bound engine or of a `PUSH`, `RDLAST` raises. -/
theorem rdlast_of_no_value {s : State} (h : s.lc ≠ .bound ∨ s.last = none) :
    exec .rdlast s = .next (s.raise .state) := by
  obtain ⟨t, ht⟩ := rdlast_answers s
  obtain ⟨_, rfl⟩ | ⟨v, hl, hlast, _⟩ := rdlast_next ht
  · exact ht
  · simp [hl, hlast] at h

/-- Sign extension takes a numerator from the 26 bits of the cache to the 32 bits of the response. -/
theorem NumeratorBound.signExtend_ofInt {cls : CorrClass} {n : Nat} {i q : Int} (h : NumeratorBound cls n i q)
    (hn : n < 2 ^ 24) :
    (BitVec.ofInt 26 i).signExtend 32 = BitVec.ofInt 32 i ∧
      (BitVec.ofInt 26 q).signExtend 32 = BitVec.ofInt 32 q := by
  obtain ⟨hi, hq⟩ := h.toInt_ofInt hn
  rw [BitVec.signExtend, BitVec.signExtend, hi, hq]
  exact ⟨rfl, rfl⟩

/-- Right after a `PUSH` of a bound engine, `RDLAST` leaves the very state that the `PUSH` left. -/
theorem rdlast_after_push {s t : State} {op : OpWord} (h : HostInv s) (hl : s.lc = .bound)
    (ht : exec (.push op) s = .next t) : exec .rdlast t = .next t := by
  obtain ⟨_, hri, hrq⟩ := h.boundary.patternIsLive (by simp [hl])
  obtain ⟨hne, _⟩ | ⟨_, _, i, q, _, _, _, _, hacc, rfl⟩ := push_next ht
  · exact absurd hl hne
  · obtain ⟨hi, hq⟩ := (accumulate_numeratorBound hri hrq hacc).signExtend_ofInt s.pn.isLt
    exact rdlast_keeps_state hl rfl (by rw [hi, hq]; rfl)

/-- Every command but `PUSH` leaves the cache as it is or empties it (10_state.md rule R33). -/
theorem command_keeps_or_empties_cache {i : Instr} {s t : State} (hi : i.isCommand = true)
    (hpush : ∀ op, i ≠ .push op) (h : exec i s = .next t) : t.last = s.last ∨ t.last = none := by
  cases i with
  | pseq n burst =>
    obtain ⟨_, ⟨_, rfl⟩ | ⟨_, _, rfl⟩ | ⟨_, _, rfl⟩ | ⟨_, _, _, rfl⟩⟩ := pseq_next h
    exacts [.inl rfl, .inl rfl, .inl rfl, .inl rfl]
  | pgen sel =>
    obtain ⟨_, rfl⟩ | ⟨_, _, rfl⟩ | ⟨_, _, _, _, rfl⟩ := pgen_next h
    exacts [.inl rfl, .inl rfl, .inl rfl]
  | bind =>
    obtain ⟨_, rfl⟩ | ⟨_, _, _, rfl⟩ := bind_next h
    exacts [.inl rfl, .inr rfl]
  | reset =>
    obtain ⟨_, rfl⟩ | ⟨_, _, _, _, rfl⟩ := reset_next h
    exacts [.inl rfl, .inr rfl]
  | push op => exact absurd rfl (hpush op)
  | destroy =>
    obtain ⟨_, rfl⟩ | ⟨_, _, _, ⟨_, rfl⟩ | ⟨_, _, _, rfl⟩⟩ := destroy_next h
    exacts [.inl rfl, .inr rfl, .inr rfl]
  | info =>
    obtain rfl := info_next h
    exact .inl rfl
  | rdlast =>
    obtain ⟨_, rfl⟩ | ⟨_, _, _, rfl⟩ := rdlast_next h
    exacts [.inl rfl, .inl rfl]
  | pdestroy =>
    obtain ⟨_, rfl⟩ | ⟨_, _, _, rfl⟩ := pdestroy_next h
    exacts [.inl rfl, .inl rfl]
  | _ => cases hi

/-- Settles O23: the word evaluates; the response is the cache sign-extended, which keeps its value; the cache holds
what the `PUSH` before answered; and the commands are taken one by one. -/
theorem rdlastReturnsTheCache : Obligations.RdlastReturnsTheCache := by
  refine ⟨rfl, fun s => ⟨fun v hl hlast => ?cached, fun h => ?noValue⟩, fun s op h hl => ?afterPush,
    fun s t i hi hpush h => command_keeps_or_empties_cache hi hpush h⟩
  case cached =>
    exact ⟨_, rdlast_of_cache hl hlast, rfl, BitVec.toInt_signExtend_of_le (by decide),
      BitVec.toInt_signExtend_of_le (by decide)⟩
  case noValue => exact (rdlast_of_no_value h).trans (congrArg _ (s.raise_eq_raisedState .state))
  case afterPush =>
    obtain ⟨t, ht⟩ := push_answers (op := op) h.boundary
    exact ⟨t, ht, rdlast_after_push h hl ht⟩

/-! ### Both commands write no state (rule R200) -/

/-- Settles O31: each answer is `done` or `raise` on the state itself, and the same answer follows from the state after
it. -/
theorem diagnosticsWriteNoState : Obligations.DiagnosticsWriteNoState := by
  rintro s t i (rfl | rfl) h
  case inl =>
    obtain rfl := info_next h
    exact ⟨rfl, fun _ => rfl, rfl⟩
  case inr =>
    obtain ⟨hno, rfl⟩ | ⟨v, hl, hlast, rfl⟩ := rdlast_next h
    · refine ⟨rfl, ?errorIsNotOk, ?raisesAgain⟩
      case errorIsNotOk =>
        rintro ⟨_, ⟨⟩, ⟨⟩⟩
      case raisesAgain =>
        have hagain : exec .rdlast (s.raise .state) = .next ((s.raise .state).raise .state) :=
          rdlast_of_no_value hno
        rwa [State.raise_raise] at hagain
    · exact ⟨rfl, fun _ => rfl, rdlast_keeps_state hl hlast rfl⟩

end Sys2Proof.Machine

/-! ## Exceptions and idling

The state check of rule R214 and the idle engine of rule R230 (60_exceptions.md). The check stands before everything
else that a command does, so outside the state that it needs a command raises in every state, at a command boundary or
not. -/

namespace Sys2Proof.Machine

/-! ### The state check of every command (rule R214) -/

theorem pseq_of_ne_empty {s : State} {n : BitVec 24} {burst : List OpWord} (hlen : burst.length = n.toNat)
    (hl : s.lc ≠ .empty) : exec (.pseq n burst) s = .next (s.raise .state) := by
  obtain ⟨t, ht⟩ := pseq_answers (s := s) hlen
  rwa [eq_raise_of_ne_neededState ht rfl hl] at ht

/-- A command with a legal encoding, outside the state it needs, answers, and its answer is `E_STATE`. -/
theorem exec_of_ne_neededState {i : Instr} {s : State} {l : Lifecycle} (hwf : i.wf = true)
    (hneed : neededState i = some l) (hl : s.lc ≠ l) : exec i s = .next (s.raise .state) := by
  cases i with
  | pseq n burst =>
    cases hneed
    exact pseq_of_ne_empty (by simpa [Instr.wf] using hwf) hl
  | pgen sel =>
    cases hneed
    exact pgen_of_ne_empty hl
  | bind | reset | push _ | destroy | rdlast | pdestroy =>
    cases hneed
    exact inLifecycle_of_ne hl
  | _ => cases hneed

/-- Settles O24: the check of each command, the cache that `RDLAST` needs besides, and `INFO`, which has no check. -/
theorem outOfOrderCommandRaises : Obligations.OutOfOrderCommandRaises := by
  refine ⟨fun i s l hwf hneed hl => ?wrongState, fun s hlast => ?noCache, fun s => ⟨_, _, rfl, rfl, rfl⟩⟩
  case wrongState => exact (exec_of_ne_neededState hwf hneed hl).trans (congrArg _ (s.raise_eq_raisedState .state))
  case noCache => exact (rdlast_of_no_value (.inr hlast)).trans (congrArg _ (s.raise_eq_raisedState .state))

/-! ### The idle engine (rule R230) -/

/-- Settles O8: a step takes the next input, and there is none. -/
theorem idleKeepsEverything : Obligations.IdleKeepsEverything :=
  fun _ => step_of_input_nil

end Sys2Proof.Machine

/-! ## Reset

What HRESET leaves behind, rule R240 (70_reset_and_hazards.md). -/

namespace Sys2Proof.Machine

/-- Settles O9: the next state is `State.resetWith` of the old parameters with the remaining input, so every piece,
and the two flags that are read off the absent cache and generator, is its reset value by computation. -/
theorem hresetGivesResetValues : Obligations.HresetGivesResetValues := by
  intro s rest hin
  refine ⟨{ State.resetWith s.cfg with input := rest }, step_of_hreset hin, ?_⟩
  exact ⟨rfl, rfl, rfl, rfl, rfl, rfl, rfl, rfl, rfl, rfl, rfl, rfl, rfl, rfl⟩

end Sys2Proof.Machine
